-- ==== Sys2Proof/Word.lean ====
section
/-! DEFINITION. The words of the block: 32-bit registers, bytes of the window, binary64 encodings (R9, R10). -/

namespace Sys2Proof

/-- A byte of the register window. -/
abbrev Byte := BitVec 8

/-- A 32-bit register or bus word (R9). -/
abbrev Word := BitVec 32

/-- A sample or amplitude, as its 64-bit IEEE 754 binary64 encoding (R10, D2). -/
abbrev F64 := BitVec 64

end Sys2Proof
end

