-- ==== Sys2Proof/Syntax.lean ====
section
/-! DEFINITION. The five commands of opcode_table.json (R58). -/

namespace Sys2Proof

/-- A command of the block: one constructor per row of the opcode table. The consumer slot is the unsigned
argument `c` of R60; WellFormed bounds it by the 8 bits of its field. -/
inductive Instr where
  /-- CONFIG (R68): commit the staged parameters. -/
  | config
  /-- RECEIVE (R74): modulate BITBUF, store, deliver. -/
  | receive
  /-- EMIT (R92): deliver the stored output again. -/
  | emit
  /-- CONNECT c (R93). -/
  | connect (c : Nat)
  /-- DISCONNECT c (R94). -/
  | disconnect (c : Nat)
  deriving DecidableEq, Repr

end Sys2Proof
end

