-- ==== Sys2Proof/WellFormed.lean ====
section
/-! DEFINITION. Which commands have an encoding: the slot argument fits its 8-bit field (R57, R66). -/

namespace Sys2Proof

/-- A command that the format CMD32 can hold: `0 <= c <= 255` (R66). -/
def Instr.wellFormed : Instr → Bool
  | .config => true
  | .receive => true
  | .emit => true
  | .connect c => decide (c ≤ 255)
  | .disconnect c => decide (c ≤ 255)

/-- `wellFormed` as a proposition. -/
abbrev Instr.WellFormed (i : Instr) : Prop := i.wellFormed = true

end Sys2Proof
end

