-- ==== Sys2Proof/Decode.lean ====
section
/-! DEFINITION. Decoding of a CMD write (R57 to R63) and its encoder. -/

namespace Sys2Proof

/-- Why a CMD value is illegal (R62); every reason is reported as IllegalCommand. -/
inductive DecodeError where
  /-- RSVD (31:16) is not 0. -/
  | reservedBits
  /-- OPC (7:0) is 0x00 or at least 0x06. -/
  | undefinedOpcode
  /-- ARG (15:8) is not 0 in a CONFIG, RECEIVE or EMIT. -/
  | argumentNotZero
  deriving DecidableEq, Repr

/-- OPC, bits 7:0 (R57). -/
def opcField (w : Word) : BitVec 8 := w.extractLsb' 0 8

/-- ARG, bits 15:8 (R57). -/
def argField (w : Word) : BitVec 8 := w.extractLsb' 8 8

/-- RSVD, bits 31:16 (R57). -/
def rsvdField (w : Word) : BitVec 16 := w.extractLsb' 16 16

/-- A command without an argument: ARG must be 0 (R59). -/
def decodeNoArg (w : Word) (i : Instr) : Except DecodeError Instr :=
  if argField w = 0 then .ok i else .error .argumentNotZero

/-- Decoding of the value of a CMD write, in the order of R59, by the opcode map of R58. -/
def decode (w : Word) : Except DecodeError Instr :=
  if rsvdField w ≠ 0 then .error .reservedBits
  else if opcField w = 0x01 then decodeNoArg w .config
  else if opcField w = 0x02 then decodeNoArg w .receive
  else if opcField w = 0x03 then decodeNoArg w .emit
  else if opcField w = 0x04 then .ok (.connect (argField w).toNat)
  else if opcField w = 0x05 then .ok (.disconnect (argField w).toNat)
  else .error .undefinedOpcode

/-- The opcode of a command (R58). -/
def opcodeOf : Instr → BitVec 8
  | .config => 0x01
  | .receive => 0x02
  | .emit => 0x03
  | .connect _ => 0x04
  | .disconnect _ => 0x05

/-- The argument field of a command: the slot, or 0 (R57). -/
def argumentOf : Instr → BitVec 8
  | .config => 0
  | .receive => 0
  | .emit => 0
  | .connect c => BitVec.ofNat 8 c
  | .disconnect c => BitVec.ofNat 8 c

/-- The command word of a command: RSVD = 0, ARG, OPC (R57). -/
def encode (i : Instr) : Word := (0 : BitVec 16) ++ argumentOf i ++ opcodeOf i

/-- The command word of an opcode-table row's bits `w`, of which the row gives `nbits`. -/
def tableWord (nbits w : Nat) : Word := BitVec.ofNat 32 (w % 2 ^ nbits)

/-- The command the decoder reads from a word numbered as opcode_table.json numbers it. -/
def decodeTableWord (nbits w : Nat) : Option Instr :=
  match decode (tableWord nbits w) with
  | .ok i => some i
  | .error _ => none

end Sys2Proof
end

