-- ==== Sys2Proof/Config.lean ====
section
/-! DEFINITION. What an implementation fixes (the parameters of R8) and the free values the spec leaves open. -/

namespace Sys2Proof.Config

/-- `P_NRZT_BOUNDARY` (R84): whether a null neighbour counts as different. -/
inductive Boundary where
  | flat
  | ramp
  deriving DecidableEq, Repr

/-- The implementation parameters of R8. `State` carries one such record, which no step changes (log entry 1). -/
structure Params where
  /-- `P_BASE`: host address of the register window (R8, R38). -/
  base : Nat
  /-- `P_MAX_BITS`: capacity of BITBUF in bits. -/
  maxBits : Nat
  /-- `P_MAX_SAMPLES`: capacity of OUTBUF in samples. -/
  maxSamples : Nat
  /-- `P_MAX_CONSUMERS`: number of consumer slots. -/
  maxConsumers : Nat
  /-- `P_NRZT_BOUNDARY`. -/
  boundary : Boundary
  /-- The identifier of `P_NRZT_RAMP` (R29): 0 is REF, 1 to 15 are profiles an implementation documents. -/
  profile : BitVec 4
  deriving DecidableEq, Repr

/-- The legal values of R8. -/
abbrev Params.Legal (p : Params) : Prop :=
  p.base % 65536 = 0 ∧ p.maxBits % 32 = 0 ∧ 32 ≤ p.maxBits ∧ p.maxBits ≤ 491520 ∧
  1 ≤ p.maxSamples ∧ p.maxSamples ≤ 2 ^ 28 ∧ 1 ≤ p.maxConsumers ∧ p.maxConsumers ≤ 32

/-- The reference values of R8, used by 95_test_vectors.md. -/
def Params.reference : Params where
  base := 0
  maxBits := 1024
  maxSamples := 16384
  maxConsumers := 4
  boundary := .flat
  profile := 0

/-- The binary64 operations whose NaN results IEEE 754 leaves open. -/
inductive FloatOp where
  | add
  | mul
  | div
  deriving DecidableEq, Repr

/-- Free value (R44, R47, U1, U3): the byte that free draw number `draw` gives at window offset `off` (log entry 4). -/
opaque freeByte (draw off : Nat) : Byte

/-- Free value (U4): what the RAM of the block holds at an offset nothing has written (log entry 5). -/
opaque ramByte (off : Nat) : Byte

/-- Free value: sign (bit 51) and payload (bits 50 to 0) of a NaN that an operation produces (log entry 10). -/
opaque nanBits (op : FloatOp) (a b : F64) : BitVec 52

/-- A straight line from the midpoint toward the level: how far along sample `j` of `n` stands (R85, linear).
`Waveform.lineNum` and `lineDen` read it as the fraction `(start + (slope + 1) * j) / den`, with `den` so large that the
last sample stands `rest / den` before the level. -/
structure RampLine where
  start : Nat
  slope : Nat
  rest : Nat
  deriving DecidableEq, Repr, Inhabited

/-- Free value (R85, U14): the straight line that the rising ramp of `n` samples of a profile 1 to 15 follows in exact
arithmetic; R85 does not fix its endpoints (log entry 11). -/
opaque rampLine (profile : BitVec 4) (n : Nat) (mid lvl : F64) : RampLine

/-- Free value (R85, U14): the sample number `j` of a rising ramp of `n` samples that the profile of an identifier
1 to 15 proposes; `Waveform.freeRampUp` holds the ramp to the limits R85 sets (log entry 11). -/
opaque rampSample (profile : BitVec 4) (j n : Nat) (mid lvl : F64) : F64

end Sys2Proof.Config
end

