-- ==== Sys2Proof/Machine/Binary64.lean ====
section
/-! DEFINITION. IEEE 754 binary64 arithmetic with round-to-nearest, ties-to-even (R10, G1).

A finite number is an integer number of units of 2^-1074. Every operation converts its operands to those exact
integers, computes exactly, and narrows once, in `F64.roundMag`. -/

namespace Sys2Proof

/-- The biased exponent field, bits 62:52. -/
def F64.expField (x : F64) : Nat := (x.extractLsb' 52 11).toNat

/-- The fraction field, bits 51:0. -/
def F64.fraction (x : F64) : Nat := (x.extractLsb' 0 52).toNat

/-- The sign bit, bit 63. -/
def F64.sign (x : F64) : Bool := x.getLsbD 63

/-- `isFinite` of R10: neither an infinity nor a NaN. -/
def F64.isFinite (x : F64) : Bool := x.expField != 2047

/-- An infinity. -/
def F64.isInf (x : F64) : Bool := x.expField == 2047 && x.fraction == 0

/-- A NaN. -/
def F64.isNaN (x : F64) : Bool := x.expField == 2047 && x.fraction != 0

/-- The magnitude of a finite number, in units of 2^-1074. -/
def F64.mag (x : F64) : Nat :=
  if x.expField = 0 then x.fraction else (2 ^ 52 + x.fraction) * 2 ^ (x.expField - 1)

/-- The value of a finite number, in units of 2^-1074. -/
def F64.units (x : F64) : Int := if x.sign then -(x.mag : Int) else (x.mag : Int)

/-- The quotient `num / den` rounded to the nearest integer, ties to even. -/
def F64.nearestEven (num den : Nat) : Nat :=
  let q := num / den
  let r := num % den
  if 2 * r < den then q
  else if den < 2 * r then q + 1
  else if q % 2 = 0 then q else q + 1

/-- The low 63 bits of an infinity. -/
def F64.infMag : Nat := 2047 * 2 ^ 52

/-- The exponent by which `num / den` units must be scaled down to have at most 53 bits. -/
def F64.scaleOf (num den : Nat) : Nat := Nat.log2 (num / den) - 52

/-- Bits 62:0 of the binary64 nearest to `num / den` units of 2^-1074, ties to even; too large a value is infinity.
With `e` the scale and `m` the rounded significand (hidden bit included) the encoding is `e * 2^52 + m`, for normal
and subnormal numbers alike, and a significand that rounds up to 2^53 carries into the exponent. -/
def F64.roundMag (num den : Nat) : Nat :=
  let e := F64.scaleOf num den
  min (e * 2 ^ 52 + F64.nearestEven num (den * 2 ^ e)) F64.infMag

/-- The number with sign `neg` and low 63 bits `m`. -/
def F64.pack (neg : Bool) (m : Nat) : F64 := BitVec.ofBool neg ++ BitVec.ofNat 63 m

/-- The binary64 nearest to `num / den` units of 2^-1074, ties to even; an exact zero is +0.0. -/
def F64.nearest (num : Int) (den : Nat) : F64 := F64.pack (decide (num < 0)) (F64.roundMag num.natAbs den)

/-- The unit in the last place of a finite number, in units of 2^-1074. -/
def F64.ulp (x : F64) : Nat := 2 ^ (x.expField - 1)

/-- A quiet NaN; sign and payload are free (log entry 10). -/
def F64.freeNaN (op : Config.FloatOp) (a b : F64) : F64 :=
  let n := Config.nanBits op a b
  n.extractLsb' 51 1 ++ (0x7FF : BitVec 11) ++ (1 : BitVec 1) ++ n.extractLsb' 0 51

/-- The same number with the opposite sign. -/
def F64.neg (x : F64) : F64 := F64.pack (!x.sign) (x.toNat % 2 ^ 63)

/-- The sum of two finite numbers: an exact zero is -0.0 only if both are negative. -/
def F64.addFinite (a b : F64) : F64 :=
  let s := a.units + b.units
  F64.pack (if s = 0 then a.sign && b.sign else decide (s < 0)) (F64.roundMag s.natAbs 1)

/-- `+f` (R10). -/
def F64.add (a b : F64) : F64 :=
  if a.isFinite && b.isFinite then F64.addFinite a b
  else if a.isNaN || b.isNaN || (a.isInf && b.isInf && a.sign != b.sign) then F64.freeNaN .add a b
  else if a.isInf then a else b

/-- `-f` (R10): the sum with the opposite of `b`. -/
def F64.sub (a b : F64) : F64 := F64.add a (F64.neg b)

/-- `*f` (R10). -/
def F64.mul (a b : F64) : F64 :=
  if a.isFinite && b.isFinite then F64.pack (a.sign != b.sign) (F64.roundMag (a.mag * b.mag) (2 ^ 1074))
  else if a.isNaN || b.isNaN || (a.isFinite && a.mag == 0) || (b.isFinite && b.mag == 0) then F64.freeNaN .mul a b
  else F64.pack (a.sign != b.sign) F64.infMag

/-- `/f` (R10). -/
def F64.div (a b : F64) : F64 :=
  if a.isNaN || b.isNaN || (a.isInf && b.isInf) then F64.freeNaN .div a b
  else if a.isInf then F64.pack (a.sign != b.sign) F64.infMag
  else if b.isInf then F64.pack (a.sign != b.sign) 0
  else if b.mag = 0 then
    if a.mag = 0 then F64.freeNaN .div a b else F64.pack (a.sign != b.sign) F64.infMag
  else F64.pack (a.sign != b.sign) (F64.roundMag (a.mag * 2 ^ 1074) b.mag)

/-- The place of a number that is no NaN in the order of the numbers; both zeros have place 0. -/
def F64.key (x : F64) : Int := if x.sign then -((x.toNat % 2 ^ 63 : Nat) : Int) else ((x.toNat % 2 ^ 63 : Nat) : Int)

/-- `<` (R10): false when either side is a NaN. -/
def F64.lt (a b : F64) : Bool := !a.isNaN && !b.isNaN && decide (a.key < b.key)

/-- `<=` (R10): false when either side is a NaN. -/
def F64.le (a b : F64) : Bool := !a.isNaN && !b.isNaN && decide (a.key ≤ b.key)

/-- IEEE equality (R10): -0.0 and +0.0 compare equal, a NaN equals nothing. -/
def F64.eq (a b : F64) : Bool := !a.isNaN && !b.isNaN && decide (a.key = b.key)

/-- `f64(n)`, exact for `n < 2^53` (R10). -/
def F64.ofNat (n : Nat) : F64 := F64.pack false (F64.roundMag (n * 2 ^ 1074) 1)

/-- +0.0. -/
def F64.posZero : F64 := 0x0000000000000000

/-- 2.0, the divisor of the midpoint (R81). -/
def F64.two : F64 := 0x4000000000000000

end Sys2Proof
end

