-- ==== Sys2Proof/Machine/State.lean ====
section
/-! DEFINITION. Everything the spec gives the machine (R15), the model's own fields, the reasons a step stops, reset. -/

namespace Sys2Proof.Machine

/-- The error kinds this block raises (R96), reported in STATUS.ERRCODE. -/
inductive ErrorKind where
  | invalidSignal
  | unknownModulation
  | invalidAmplitudeRange
  | invalidSamplesPerBit
  | capacityExceeded
  | notConfigured
  | illegalCommand
  | invalidConsumer
  deriving DecidableEq, Repr

/-- The line codes (R61). -/
inductive Scheme where
  | nrz
  | nrzt
  | rz
  deriving DecidableEq, Repr

/-- The registers a host reads or writes by offset (R37), CMD apart (it is not storage, R18). -/
inductive Reg where
  | status
  | sScheme | sSpb | sAminLo | sAminHi | sAmaxLo | sAmaxHi
  | aScheme | aSpb | aAminLo | aAminHi | aAmaxLo | aAmaxHi
  | bitlen | consumers | outlen
  | maxBits | maxSamples | params
  deriving DecidableEq, Repr

/-- What stands at a mapped offset (R37). -/
inductive Region where
  | cmd
  | register (r : Reg)
  | bitbuf
  | outbuf
  deriving DecidableEq, Repr

/-- The direction of a host access. -/
inductive Direction where
  | read
  | write
  deriving DecidableEq, Repr

/-- One entry of the output trace, `Emit(mask, samples)` (R32): by value, never an alias of OUTBUF. -/
structure Emission where
  mask : Word
  samples : List F64
  deriving DecidableEq, Repr

/-- One access of the host: its width in bits, its host address (`P_BASE` + offset), the value of a write (R39, R40). -/
inductive HostAccess where
  | read (width addr : Nat)
  | write (width addr : Nat) (value : Word)
  deriving DecidableEq, Repr

/-- What reaches the block from outside: a host access, or the platform's reset (R111). -/
inductive Input where
  | access (a : HostAccess)
  | reset
  deriving DecidableEq, Repr

/-- What a host read returned: part of a run's observation (R117). -/
structure HostRead where
  off : Nat
  value : Word
  deriving DecidableEq, Repr

/-- Bytes of BITBUF and OUTBUF by window offset; an unlisted offset holds no value (log entry 6). -/
abbrev Memory := List Host.Cell

/-- The state of the block (R15), its parameters, and the model's own fields `pending`, `reads` and `draws`. -/
structure State where
  /-- The parameters of R8; MAXBITS, MAXSAMPLES and PARAMS (R28, R29) are views of it. No step changes it. -/
  params : Config.Params
  /-- STATUS bit 0 (R19). -/
  cfgValid : Bool
  /-- STATUS bit 1 (R19). -/
  outValid : Bool
  /-- STATUS bits 15:8 (R19). -/
  errcode : Byte
  /-- STATUS bits 23:16 (R19). -/
  lastOpc : Byte
  /-- S_SCHEME (R21). -/
  sScheme : Word
  /-- S_SPB (R22). -/
  sSpb : Word
  /-- S_AMIN_LO (R23). -/
  sAminLo : Word
  /-- S_AMIN_HI (R23). -/
  sAminHi : Word
  /-- S_AMAX_LO (R23). -/
  sAmaxLo : Word
  /-- S_AMAX_HI (R23). -/
  sAmaxHi : Word
  /-- A_SCHEME (R24). -/
  aScheme : Word
  /-- A_SPB (R24). -/
  aSpb : Word
  /-- A_AMIN_LO (R24). -/
  aAminLo : Word
  /-- A_AMIN_HI (R24). -/
  aAminHi : Word
  /-- A_AMAX_LO (R24). -/
  aAmaxLo : Word
  /-- A_AMAX_HI (R24). -/
  aAmaxHi : Word
  /-- BITLEN (R25). -/
  bitlen : Word
  /-- CONSUMERS (R26), read only through `consumersReg`, which forces the bits from P_MAX_CONSUMERS on to 0. -/
  consumers : Word
  /-- OUTLEN (R27). -/
  outlen : Word
  /-- BITBUF with its `written` flags (R30) and OUTBUF (R31), by window offset. -/
  mem : Memory
  /-- The output trace, oldest first (R32). -/
  trace : List Emission
  /-- The fault mark (R33). -/
  faultMark : Bool
  /-- Model's own: the inputs still to come, next first (log entry 2). -/
  pending : List Input
  /-- Model's own: what host reads returned since reset, oldest first (log entry 3). -/
  reads : List HostRead
  /-- Model's own: the number of the next free draw (log entry 4). -/
  draws : Nat
  deriving DecidableEq, Repr

/-- The model faults (R103). -/
inductive Fault where
  /-- FAULT_UNWRITTEN_INPUT (R45, R103), raised by RECEIVE when a BITBUF bit below BITLEN was never written, and by
  every step of a state whose fault mark is set (R33). Safe: the hardware would go on with whatever its RAM holds. -/
  | unwrittenInput
  deriving DecidableEq, Repr

/-- Why there is no step. -/
inductive Refusal where
  /-- An instruction without a meaning, raised by `exec`'s arms only. Safe. No arm of this model uses it. -/
  | notModelled (mnemonic : String)
  /-- A host access of a width other than 32 bits (R40, U5), raised by the host port. Safe: a real bus answers somehow. -/
  | accessWidth
  /-- A host access at an offset not a multiple of 4 (R40, U6), raised by the host port. Safe. -/
  | misalignedOffset
  /-- A host access to a reserved or outside range (R40, U7), raised by the host port. Safe. -/
  | unmappedOffset
  /-- A host write to a read-only register or to OUTBUF, or a host read of CMD (R40, U8), raised by the host port. Safe. -/
  | accessDirection
  deriving DecidableEq, Repr

/-- The block with parameters `p` right after reset (R112), nothing placed for the host to do. -/
def State.resetWith (p : Config.Params) : State where
  params := p
  cfgValid := false
  outValid := false
  errcode := 0
  lastOpc := 0
  sScheme := 0
  sSpb := 0
  sAminLo := 0
  sAminHi := 0
  sAmaxLo := 0
  sAmaxHi := 0
  aScheme := 0
  aSpb := 0
  aAminLo := 0
  aAminHi := 0
  aAmaxLo := 0
  aAmaxHi := 0
  bitlen := 0
  consumers := 0
  outlen := 0
  mem := []
  trace := []
  faultMark := false
  pending := []
  reads := []
  draws := 0

/-- The machine right after reset (R112), at the reference parameters of R8. -/
def State.reset : State := State.resetWith Config.Params.reference

end Sys2Proof.Machine
end

