-- ==== Sys2Proof/Machine/Flags.lean ====
section
/-! DEFINITION. The STATUS and parameter words, the error codes, and the flags a command writes (R19, R28, R29, R97). -/

namespace Sys2Proof.Machine

/-- The code of an error kind in STATUS.ERRCODE (R97). -/
def errorCode : ErrorKind → Byte
  | .invalidSignal => 1
  | .unknownModulation => 2
  | .invalidAmplitudeRange => 3
  | .invalidSamplesPerBit => 4
  | .capacityExceeded => 5
  | .notConfigured => 6
  | .illegalCommand => 7
  | .invalidConsumer => 8

/-- The STATUS word (R19): reserved bits 7:2 and 31:24 are 0. -/
def statusWord (s : State) : Word :=
  (0 : BitVec 8) ++ s.lastOpc ++ s.errcode ++ (0 : BitVec 6) ++ BitVec.ofBool s.outValid ++ BitVec.ofBool s.cfgValid

/-- The MAXBITS word (R28). -/
def maxBitsWord (p : Config.Params) : Word := BitVec.ofNat 32 p.maxBits

/-- The MAXSAMPLES word (R28). -/
def maxSamplesWord (p : Config.Params) : Word := BitVec.ofNat 32 p.maxSamples

/-- The PARAMS word (R29): reserved bits 11:9 and 31:16 are 0. -/
def paramsWord (p : Config.Params) : Word :=
  (0 : BitVec 16) ++ p.profile ++ (0 : BitVec 3) ++ BitVec.ofBool (p.boundary == .ramp) ++ BitVec.ofNat 8 p.maxConsumers

/-- LAST_OPC <- bits 7:0 of the CMD value, legal or not (R59). -/
def setLastOpc (s : State) (opc : Byte) : State := { s with lastOpc := opc }

/-- ERRCODE <- 0 at the end of a command that succeeds (R19). -/
def succeed (s : State) : State := { s with errcode := 0 }

/-- `raise E` (R98, R100): ERRCODE <- code(E) and nothing else. An error is not a trap; the host goes on. -/
def raise (s : State) (e : ErrorKind) : State := { s with errcode := errorCode e }

end Sys2Proof.Machine
end

