-- ==== Sys2Proof/Machine/Ops.lean ====
section
/-! DEFINITION. The named operations over memory, registers, the output trace and reset. Reporting an error (this
block's only exception, R100) is `raise` in Flags.lean; nothing is saved, so there is no return from it (R101). -/

namespace Sys2Proof.Machine

/-! ## The bytes of the buffers -/

/-- The first byte of BITBUF (R37). -/
def bitbufBase : Nat := 0x1000

/-- The first byte of OUTBUF (R37). -/
def outbufBase : Nat := 0x10000

/-- The canonical form: offsets strictly rising. (An unlisted offset holds no value, so no entry equals it.) -/
abbrev Memory.wf (m : Memory) : Prop := m.Pairwise (fun x y => x.1 < y.1)

/-- The part of the memory from offset `a` on. -/
def Memory.seek (m : Memory) (a : Nat) : Memory := m.dropWhile (fun c => decide (c.1 < a))

/-- The part of the memory before offset `a`. -/
def Memory.below (m : Memory) (a : Nat) : Memory := m.takeWhile (fun c => decide (c.1 < a))

/-- The byte at offset `a`; none if nothing has written it since reset. -/
def Memory.read (m : Memory) (a : Nat) : Option Byte :=
  match Memory.seek m a with
  | [] => none
  | c :: _ => if c.1 = a then some c.2 else none

/-- Consecutive cells from offset `a` on. -/
def cellsFrom (a : Nat) : List Byte → Memory
  | [] => []
  | b :: bs => (a, b) :: cellsFrom (a + 1) bs

/-- Writing the bytes `bs` from offset `a` on; every other byte is as before. -/
def Memory.write (m : Memory) (a : Nat) (bs : List Byte) : Memory :=
  Memory.below m a ++ cellsFrom a bs ++ Memory.seek m (a + bs.length)

/-- The bytes of a 32-bit word, lowest first (R42). -/
def wordBytes (w : Word) : List Byte := (List.range 4).map fun i => w.extractLsb' (8 * i) 8

/-- The bytes of a sample, lowest first (R42, R46). -/
def sampleBytes (x : F64) : List Byte := (List.range 8).map fun i => x.extractLsb' (8 * i) 8

/-- The word whose bytes, lowest first, are `b 0` to `b 3` (R42). -/
def wordOfBytes (b : Nat → Byte) : Word := b 3 ++ b 2 ++ b 1 ++ b 0

/-- The 64-bit value whose bytes, lowest first, are `b 0` to `b 7` (R42). -/
def sampleOfBytes (b : Nat → Byte) : F64 := b 7 ++ b 6 ++ b 5 ++ b 4 ++ b 3 ++ b 2 ++ b 1 ++ b 0

/-- BITBUF bit `i` (R43): bit `i mod 8` of byte `i div 8`; none if its `written` flag is clear (R30). -/
def bitRead (m : Memory) (i : Nat) : Option Bool :=
  (Memory.read m (bitbufBase + i / 8)).map fun b => b.getLsbD (i % 8)

/-- OUTBUF sample `j` (R46); a byte that nothing has written is the RAM's own (log entry 5). -/
def outSample (m : Memory) (a : Nat) : F64 :=
  sampleOfBytes fun i => (Memory.read m (a + i)).getD (Config.ramByte (a + i))

/-- The `n` samples stored from offset `a` on. -/
def outSamplesFrom (m : Memory) (a : Nat) : Nat → List F64
  | 0 => []
  | n + 1 => outSample (Memory.seek m a) a :: outSamplesFrom (Memory.seek m a) (a + 8) n

/-- `OutWrite(j, out[j])` for every `j` (R76). -/
def outWrite (m : Memory) (out : List F64) : Memory := Memory.write m outbufBase (out.flatMap sampleBytes)

/-- The word at offset `off`, each byte that nothing has written taken from free draw number `draw` (R44). -/
def wordRead (m : Memory) (draw off : Nat) : Word :=
  wordOfBytes fun i => (Memory.read m (off + i)).getD (Config.freeByte draw (off + i))

/-- A word of which every byte is free draw number `draw` (R47). -/
def freeWord (draw off : Nat) : Word := wordOfBytes fun i => Config.freeByte draw (off + i)

/-! ## Registers -/

/-- The bits of the consumer slots that exist (R26). -/
def consumerMask (p : Config.Params) : Word := BitVec.ofNat 32 (2 ^ p.maxConsumers - 1)

/-- CONSUMERS as it reads (R26): bits from P_MAX_CONSUMERS on are 0. -/
def consumersReg (s : State) : Word := s.consumers &&& consumerMask s.params

/-- The value of a register (R41). -/
def regRead (s : State) : Reg → Word
  | .status => statusWord s
  | .sScheme => s.sScheme
  | .sSpb => s.sSpb
  | .sAminLo => s.sAminLo
  | .sAminHi => s.sAminHi
  | .sAmaxLo => s.sAmaxLo
  | .sAmaxHi => s.sAmaxHi
  | .aScheme => s.aScheme
  | .aSpb => s.aSpb
  | .aAminLo => s.aAminLo
  | .aAminHi => s.aAminHi
  | .aAmaxLo => s.aAmaxLo
  | .aAmaxHi => s.aAmaxHi
  | .bitlen => s.bitlen
  | .consumers => consumersReg s
  | .outlen => s.outlen
  | .maxBits => maxBitsWord s.params
  | .maxSamples => maxSamplesWord s.params
  | .params => paramsWord s.params

/-- The registers a host may write (R37); every register may be read. -/
def regWritable : Reg → Bool
  | .sScheme | .sSpb | .sAminLo | .sAminHi | .sAmaxLo | .sAmaxHi | .bitlen => true
  | .status | .aScheme | .aSpb | .aAminLo | .aAminHi | .aAmaxLo | .aAmaxHi | .consumers | .outlen | .maxBits
  | .maxSamples | .params => false

/-- A host write of a read-write register: all 32 bits, no other effect (R41). The host port refuses the others. -/
def regWrite (s : State) (r : Reg) (v : Word) : State :=
  match r with
  | .sScheme => { s with sScheme := v }
  | .sSpb => { s with sSpb := v }
  | .sAminLo => { s with sAminLo := v }
  | .sAminHi => { s with sAminHi := v }
  | .sAmaxLo => { s with sAmaxLo := v }
  | .sAmaxHi => { s with sAmaxHi := v }
  | .bitlen => { s with bitlen := v }
  | .status | .aScheme | .aSpb | .aAminLo | .aAminHi | .aAmaxLo | .aAmaxHi | .consumers | .outlen | .maxBits
  | .maxSamples | .params => s

/-- `reg(CONSUMERS)[c] <- 1` (R93). -/
def connectSlot (s : State) (c : Nat) : State := { s with consumers := s.consumers ||| ((1 : Word) <<< c) }

/-- `reg(CONSUMERS)[c] <- 0` (R94). -/
def disconnectSlot (s : State) (c : Nat) : State := { s with consumers := s.consumers &&& ~~~((1 : Word) <<< c) }

/-- CONFIG's commit (R72): the staging words are copied unchanged, CFG_VALID <- 1. -/
def commitConfig (s : State) : State :=
  { s with
    aScheme := s.sScheme
    aSpb := s.sSpb
    aAminLo := s.sAminLo
    aAminHi := s.sAminHi
    aAmaxLo := s.sAmaxLo
    aAmaxHi := s.sAmaxHi
    cfgValid := true }

/-! ## Output -/

/-- The trace entries of one delivery (R91): one that names every connected slot, none if no slot is connected. -/
def emissionOf (s : State) (x : List F64) : List Emission :=
  if consumersReg s = 0 then [] else [{ mask := consumersReg s, samples := x }]

/-- `deliver(x)` (R91). -/
def deliver (s : State) (x : List F64) : State := { s with trace := s.trace ++ emissionOf s x }

/-- The writes of `rx_commit` before the delivery (R76): OUTBUF, OUTLEN, OUT_VALID. -/
def storeOutput (s : State) (out : List F64) : State :=
  { s with mem := outWrite s.mem out, outlen := BitVec.ofNat 32 out.length, outValid := true }

/-! ## Reset -/

/-- The platform's reset (R111, R112): the state of R112; the fault mark stays, and so do the model's own `pending`
(the host's accesses go on after the reset) and `draws`. The observation of the run before it ends (R117). -/
def resetBlock (s : State) : State :=
  { State.resetWith s.params with faultMark := s.faultMark, pending := s.pending, draws := s.draws }

end Sys2Proof.Machine
end

