-- ==== Sys2Proof/Machine/Operands.lean ====
section
/-! DEFINITION. The operands of the commands (R60): what each reads from registers and BITBUF. -/

namespace Sys2Proof.Machine

/-- The staged Amin, `HI ++ LO` (R23). -/
def stagedAmin (s : State) : F64 := s.sAminHi ++ s.sAminLo

/-- The staged Amax, `HI ++ LO` (R23). -/
def stagedAmax (s : State) : F64 := s.sAmaxHi ++ s.sAmaxLo

/-- The active Amin, `HI ++ LO` (R24, R60). -/
def activeAmin (s : State) : F64 := s.aAminHi ++ s.aAminLo

/-- The active Amax, `HI ++ LO` (R24, R60). -/
def activeAmax (s : State) : F64 := s.aAmaxHi ++ s.aAmaxLo

/-- N, the number of input bits (R25, R60). -/
def inputBits (s : State) : Nat := s.bitlen.toNat

/-- S, the active samplesPerBit (R60). -/
def activeSpb (s : State) : Nat := s.aSpb.toNat

/-- The scheme of a scheme code (R61); none is an unrecognized code. -/
def schemeOf (code : Nat) : Option Scheme :=
  if code = 0 then some .nrz else if code = 1 then some .nrzt else if code = 2 then some .rz else none

/-- The active scheme code, decoded (R60, R61). -/
def activeScheme (s : State) : Option Scheme := schemeOf s.aScheme.toNat

/-- `[BitRead(i) .. BitRead(i + n - 1)]` (R12, R74); none if one of the bits is unwritten (R45). -/
def readBits (m : Memory) (i : Nat) : Nat → Option (List Bool)
  | 0 => some []
  | n + 1 =>
    match bitRead m i, readBits m (i + 1) n with
    | some b, some bs => some (b :: bs)
    | _, _ => none

end Sys2Proof.Machine
end

