-- ==== Sys2Proof/Machine/Configuration.lean ====
section
/-! DEFINITION. The CONFIG command (R68 to R73). -/

namespace Sys2Proof.Machine

/-- What R69 asks of the amplitudes: both finite, Amax > Amin, and a finite sum. -/
def amplitudesValid (amin amax : F64) : Bool :=
  amin.isFinite && amax.isFinite && F64.lt amin amax && F64.isFinite (F64.add amax amin)

/-- What R70 asks of samplesPerBit. -/
def spbValid (S : Nat) : Bool := decide (1 ≤ S) && decide (S ≤ 2 ^ 31 - 1)

/-- CONFIG (R68): the amplitude check (R69), then the samplesPerBit check (R70), then the commit (R72). -/
def execConfig (s : State) : Host.Outcome State Fault Refusal :=
  if amplitudesValid (stagedAmin s) (stagedAmax s) = false then .next (raise s .invalidAmplitudeRange)
  else if spbValid s.sSpb.toNat = false then .next (raise s .invalidSamplesPerBit)
  else .next (succeed (commitConfig s))

end Sys2Proof.Machine
end

