-- ==== Sys2Proof/Machine/Waveform.lean ====
section
/-! DEFINITION. The line codes NRZ, NRZT and RZ (R77 to R89). -/

namespace Sys2Proof.Machine

/-- `k = S div 3`, the size of segments 1 and 2 (R78). -/
def segK (S : Nat) : Nat := S / 3

/-- `L = S - 2k`, the size of segment 3 (R78). -/
def segL (S : Nat) : Nat := S - 2 * segK S

/-- `level(b)` (R79): a bit-exact copy of Amax or Amin. -/
def level (amin amax : F64) (b : Bool) : F64 := if b then amax else amin

/-- The midpoint `(Amax +f Amin) /f 2.0` (R81). -/
def midLevel (amin amax : F64) : F64 := F64.div (F64.add amax amin) F64.two

/-! ## NRZ (R82) -/

/-- NRZ: S copies of the level of each bit (R82). -/
def nrz (amin amax : F64) (S : Nat) (bits : List Bool) : List F64 :=
  bits.flatMap fun b => List.replicate S (level amin amax b)

/-! ## NRZT (R83 to R87) -/

/-- REF: `mid +f ((lvl -f mid) *f (f64(j) /f f64(k)))` (R86). -/
def refRampUp (j k : Nat) (mid lvl : F64) : F64 :=
  F64.add mid (F64.mul (F64.sub lvl mid) (F64.div (F64.ofNat j) (F64.ofNat k)))

/-- REF: `mid +f ((lvl -f mid) *f (f64(L - 1 - j) /f f64(L)))` (R86). -/
def refRampDown (j L : Nat) (mid lvl : F64) : F64 :=
  F64.add mid (F64.mul (F64.sub lvl mid) (F64.div (F64.ofNat (L - 1 - j)) (F64.ofNat L)))

/-- `x` lies in the closed interval between `a` and `b`, whichever is the lower. -/
def between (a b x : F64) : Bool := (F64.le a x && F64.le x b) || (F64.le b x && F64.le x a)

/-- The numerator of sample `j`'s place on a line: it rises by the same amount from each sample to the next. -/
def lineNum (l : Config.RampLine) (j : Nat) : Nat := l.start + (l.slope + 1) * j

/-- The denominator of the places on a line of `n` samples: no sample stands beyond the level. -/
def lineDen (l : Config.RampLine) (n : Nat) : Nat := max 1 (lineNum l (n - 1) + l.rest)

/-- The exact value of sample `j` on a line of `n` samples, in units of 2^-1074 over `lineDen l n` (R85, linear). -/
def lineUnits (l : Config.RampLine) (n j : Nat) (mid lvl : F64) : Int :=
  mid.units * lineDen l n + (lvl.units - mid.units) * lineNum l j

/-- How far the binary64 evaluation of a ramp may stand from its line (log entry 11): `n + 8` units in the last place
of the greater end, which covers the roundings of a closed formula and of adding up `n` equal steps. -/
def rampSlack (n : Nat) (mid lvl : F64) : Nat := (n + 8) * max mid.ulp lvl.ulp

/-- `x` is a binary64 evaluation of the line's value at sample `j`. -/
def onLine (l : Config.RampLine) (n j : Nat) (mid lvl x : F64) : Bool :=
  decide ((x.units * lineDen l n - lineUnits l n j mid lvl).natAbs ≤ rampSlack n mid lvl * lineDen l n)

/-- The limits of R85 for a rising ramp `f` of `n` samples: range, direction, and linear along `l`. -/
def keepsLimits (l : Config.RampLine) (n : Nat) (mid lvl : F64) (f : Nat → F64) : Bool :=
  (List.range n).all fun j =>
    between mid lvl (f j) && (decide (j + 1 = n) || between (f j) lvl (f (j + 1))) && onLine l n j mid lvl (f j)

/-- The line's own value at sample `j`, rounded once. (The midpoint where an end is not finite: no reachable state.) -/
def lineSample (l : Config.RampLine) (n : Nat) (mid lvl : F64) (j : Nat) : F64 :=
  if mid.isFinite && lvl.isFinite then F64.nearest (lineUnits l n j mid lvl) (lineDen l n) else mid

/-- The rising ramp of a profile 1 to 15 (R85): the free samples the profile proposes where, all together, they keep
R85's limits along its free line, else the line itself (log entry 11). -/
def freeRampUp (profile : BitVec 4) (n : Nat) (mid lvl : F64) (j : Nat) : F64 :=
  if keepsLimits (Config.rampLine profile n mid lvl) n mid lvl (fun i => Config.rampSample profile i n mid lvl) then
    Config.rampSample profile j n mid lvl
  else lineSample (Config.rampLine profile n mid lvl) n mid lvl j

/-- `RAMP_UP` under the profile of PARAMS bits 15:12 (R85, R86). -/
def rampUp (profile : BitVec 4) (j k : Nat) (mid lvl : F64) : F64 :=
  if profile = 0 then refRampUp j k mid lvl else freeRampUp profile k mid lvl j

/-- `RAMP_DOWN` under the profile of PARAMS bits 15:12: for a profile 1 to 15 the time-reverse of the rising ramp
over a segment of L samples (R85, mirror). -/
def rampDown (profile : BitVec 4) (j L : Nat) (mid lvl : F64) : F64 :=
  if profile = 0 then refRampDown j L mid lvl else freeRampUp profile L mid lvl (L - 1 - j)

/-- Whether the bit `b` differs from its neighbour; a null neighbour by P_NRZT_BOUNDARY (R83, R84). -/
def differs (p : Config.Params) (neighbour : Option Bool) (b : Bool) : Bool :=
  match neighbour with
  | some n => n != b
  | none => p.boundary == .ramp

/-- `seg1` of a bit (R83): k samples. -/
def nrztSeg1 (p : Config.Params) (amin amax : F64) (S : Nat) (prev : Option Bool) (b : Bool) : List F64 :=
  if differs p prev b then
    (List.range (segK S)).map fun j => rampUp p.profile j (segK S) (midLevel amin amax) (level amin amax b)
  else List.replicate (segK S) (level amin amax b)

/-- `seg3` of a bit (R83): L samples. -/
def nrztSeg3 (p : Config.Params) (amin amax : F64) (S : Nat) (b : Bool) (next : Option Bool) : List F64 :=
  if differs p next b then
    (List.range (segL S)).map fun j => rampDown p.profile j (segL S) (midLevel amin amax) (level amin amax b)
  else List.replicate (segL S) (level amin amax b)

/-- `wave(i)` of a bit with its two neighbours (R83). -/
def nrztWave (p : Config.Params) (amin amax : F64) (S : Nat) (prev : Option Bool) (b : Bool) (next : Option Bool) :
    List F64 :=
  nrztSeg1 p amin amax S prev b ++ List.replicate (segK S) (level amin amax b) ++ nrztSeg3 p amin amax S b next

/-- The waves of the bits that follow a bit `prev` (R83). -/
def nrztFrom (p : Config.Params) (amin amax : F64) (S : Nat) : Option Bool → List Bool → List F64
  | _, [] => []
  | prev, b :: rest => nrztWave p amin amax S prev b rest.head? ++ nrztFrom p amin amax S (some b) rest

/-- NRZT (R83). -/
def nrzt (p : Config.Params) (amin amax : F64) (S : Nat) (bits : List Bool) : List F64 :=
  nrztFrom p amin amax S none bits

/-! ## RZ (R88) -/

/-- The S samples of one bit under RZ (R88): Amin is not read. -/
def rzWave (amax : F64) (S : Nat) (b : Bool) : List F64 :=
  List.replicate (segK S) F64.posZero ++ List.replicate (segK S) (if b then amax else F64.posZero) ++
    List.replicate (segL S) F64.posZero

/-- RZ (R88). -/
def rz (amax : F64) (S : Nat) (bits : List Bool) : List F64 := bits.flatMap (rzWave amax S)

/-- The output of the active scheme (R74). -/
def modulate (p : Config.Params) (sch : Scheme) (amin amax : F64) (S : Nat) (bits : List Bool) : List F64 :=
  match sch with
  | .nrz => nrz amin amax S bits
  | .nrzt => nrzt p amin amax S bits
  | .rz => rz amax S bits

end Sys2Proof.Machine
end

