-- ==== Sys2Proof/Machine/Modulation.lean ====
section
/-! DEFINITION. The RECEIVE command (R74 to R76). -/

namespace Sys2Proof.Machine

/-- `rx_check` (R75): the checks made before BITBUF is read, in their order (R99). -/
def rxCheck (s : State) : Except ErrorKind Scheme :=
  if s.cfgValid = false then .error .notConfigured
  else if inputBits s = 0 then .error .invalidSignal
  else
    match activeScheme s with
    | none => .error .unknownModulation
    | some sch =>
      if s.params.maxBits < inputBits s ∨ s.params.maxSamples < inputBits s * activeSpb s then .error .capacityExceeded
      else .ok sch

/-- `rx_commit` (R76): OUTBUF, OUTLEN, OUT_VALID and ERRCODE, then the delivery, in one step. -/
def rxCommit (s : State) (out : List F64) : State := deliver (succeed (storeOutput s out)) out

/-- RECEIVE (R74): check, read the bits (an unwritten one is the model fault of R45), modulate, commit. -/
def execReceive (s : State) : Host.Outcome State Fault Refusal :=
  match rxCheck s with
  | .error e => .next (raise s e)
  | .ok sch =>
    match readBits s.mem 0 (inputBits s) with
    | none => .fault .unwrittenInput
    | some bits => .next (rxCommit s (modulate s.params sch (activeAmin s) (activeAmax s) (activeSpb s) bits))

end Sys2Proof.Machine
end

