-- ==== Sys2Proof/Machine/Output.lean ====
section
/-! DEFINITION. The EMIT, CONNECT and DISCONNECT commands (R91 to R95). -/

namespace Sys2Proof.Machine

/-- `[OUTBUF[j] for j in 0..OUTLEN-1]` (R92). -/
def storedOutput (s : State) : List F64 := outSamplesFrom s.mem outbufBase s.outlen.toNat

/-- EMIT (R92): deliver the stored output again. -/
def execEmit (s : State) : Host.Outcome State Fault Refusal :=
  if s.outValid = false then .next (raise s .invalidSignal)
  else .next (succeed (deliver s (storedOutput s)))

/-- CONNECT c (R93). -/
def execConnect (c : Nat) (s : State) : Host.Outcome State Fault Refusal :=
  if s.params.maxConsumers ≤ c then .next (raise s .invalidConsumer)
  else .next (succeed (connectSlot s c))

/-- DISCONNECT c (R94). -/
def execDisconnect (c : Nat) (s : State) : Host.Outcome State Fault Refusal :=
  if s.params.maxConsumers ≤ c then .next (raise s .invalidConsumer)
  else .next (succeed (disconnectSlot s c))

end Sys2Proof.Machine
end

