-- ==== Sys2Proof/Machine/Dispatch.lean ====
section
/-! DEFINITION. One arm per command: its meaning. -/

namespace Sys2Proof.Machine

def exec (i : Instr) (s : State) : Host.Outcome State Fault Refusal :=
  match i with
  | .config => Sys2Proof.Machine.execConfig s
  | .receive => Sys2Proof.Machine.execReceive s
  | .emit => Sys2Proof.Machine.execEmit s
  | .connect c => Sys2Proof.Machine.execConnect c s
  | .disconnect c => Sys2Proof.Machine.execDisconnect c s

end Sys2Proof.Machine
end

