-- ==== Sys2Proof/Machine/HostPort.lean ====
section
/-! DEFINITION. The host port: the address map, host accesses, the CMD write, the next input (R36 to R56, R59, R111). -/

namespace Sys2Proof.Machine

/-- The registers of the map (R37), by offset. -/
def registerMap : List (Nat × Region) :=
  [(0x000, .cmd), (0x004, .register .status), (0x008, .register .sScheme), (0x00C, .register .sSpb),
   (0x010, .register .sAminLo), (0x014, .register .sAminHi), (0x018, .register .sAmaxLo), (0x01C, .register .sAmaxHi),
   (0x020, .register .aScheme), (0x024, .register .aSpb), (0x028, .register .aAminLo), (0x02C, .register .aAminHi),
   (0x030, .register .aAmaxLo), (0x034, .register .aAmaxHi), (0x038, .register .bitlen), (0x03C, .register .consumers),
   (0x040, .register .outlen), (0x044, .register .maxBits), (0x048, .register .maxSamples), (0x04C, .register .params)]

/-- What stands at a word-aligned offset of the window (R37); none is a reserved or outside range. -/
def regionOf (p : Config.Params) (off : Nat) : Option Region :=
  if off < 0x1000 then registerMap.lookup off
  else if off < bitbufBase + p.maxBits / 8 then some .bitbuf
  else if outbufBase ≤ off ∧ off < outbufBase + 8 * p.maxSamples then some .outbuf
  else none

/-- The directions of access the map allows (R37). -/
def allows : Region → Direction → Bool
  | .cmd, .read => false
  | .cmd, .write => true
  | .register _, .read => true
  | .register r, .write => regWritable r
  | .bitbuf, _ => true
  | .outbuf, .read => true
  | .outbuf, .write => false

/-- Admission of a host access (R39, R40). Where an access breaks several of R40's conditions, the first one here
names its refusal (log entry 8). -/
def admission (p : Config.Params) (dir : Direction) (width off : Nat) : Except Refusal Region :=
  if width ≠ 32 then .error .accessWidth
  else if off % 4 ≠ 0 then .error .misalignedOffset
  else
    match regionOf p off with
    | none => .error .unmappedOffset
    | some r => if allows r dir then .ok r else .error .accessDirection

/-- The word at an OUTBUF offset (R47): stored if OUT_VALID and its sample is below OUTLEN, else free draw `draws`. -/
def outbufWord (s : State) (off : Nat) : Word :=
  if s.outValid = true ∧ (off - outbufBase) / 8 < s.outlen.toNat then wordRead s.mem s.draws off
  else freeWord s.draws off

/-- The model's record of a host read: the value is observed, the next free draw is a fresh one (R44, R117). -/
def observe (s : State) (off : Nat) (v : Word) : State :=
  { s with reads := s.reads ++ [{ off := off, value := v }], draws := s.draws + 1 }

/-- `HostRead(off)` (R41, R44, R47): no effect on the block (R50). -/
def hostRead (s : State) (width off : Nat) : Host.Outcome State Fault Refusal :=
  match admission s.params .read width off with
  | .error r => .refused r
  | .ok .cmd => .refused .accessDirection
  | .ok (.register r) => .next (observe s off (regRead s r))
  | .ok .bitbuf => .next (observe s off (wordRead s.mem s.draws off))
  | .ok .outbuf => .next (observe s off (outbufWord s off))

/-- A write of CMD performs a whole command (R18, R49, R59): LAST_OPC first, then decoding, then the command; an
illegal value raises IllegalCommand (R62). -/
def performCommand (s : State) (w : Word) : Host.Outcome State Fault Refusal :=
  match decode w with
  | .error _ => .next (raise (setLastOpc s (opcField w)) .illegalCommand)
  | .ok i => exec i (setLastOpc s (opcField w))

/-- A host write of a BITBUF word: its 32 bits, all of them then written (R30, R43). -/
def bitbufWrite (s : State) (off : Nat) (v : Word) : State := { s with mem := Memory.write s.mem off (wordBytes v) }

/-- `HostWrite(off, v)` (R41). -/
def hostWrite (s : State) (width off : Nat) (v : Word) : Host.Outcome State Fault Refusal :=
  match admission s.params .write width off with
  | .error r => .refused r
  | .ok .cmd => performCommand s v
  | .ok (.register r) => .next (regWrite s r v)
  | .ok .bitbuf => .next (bitbufWrite s off v)
  | .ok .outbuf => .refused .accessDirection

/-- The window offset of a host address (R36, R38); none below the window. -/
def offsetOf (p : Config.Params) (addr : Nat) : Option Nat :=
  if p.base ≤ addr then some (addr - p.base) else none

/-- One host access (R39, R40). -/
def hostAccess (s : State) : HostAccess → Host.Outcome State Fault Refusal
  | .read width addr =>
    match offsetOf s.params addr with
    | none => .refused .unmappedOffset
    | some off => hostRead s width off
  | .write width addr v =>
    match offsetOf s.params addr with
    | none => .refused .unmappedOffset
    | some off => hostWrite s width off v

/-- The state with the inputs still to come replaced. -/
def setPending (s : State) (l : List Input) : State := { s with pending := l }

/-- The next input, taken whole (R49, R52, R111). With none pending the block holds its state (R110, log entry 13);
a state whose fault mark is set has no meaning (R33). -/
def takeInput (s : State) : Host.Outcome State Fault Refusal :=
  if s.faultMark = true then .fault .unwrittenInput
  else
    match s.pending with
    | [] => .next s
    | .reset :: rest => .next (resetBlock (setPending s rest))
    | .access a :: rest => hostAccess (setPending s rest) a

/-- The host write of CMD that performs the command word `w`. -/
def commandAccess (p : Config.Params) (w : Word) : Input := .access (.write 32 p.base w)

end Sys2Proof.Machine
end

