-- ==== Sys2Proof/Machine/Step.lean ====
section
/-! DEFINITION. One step of the machine: the next input from outside, taken whole. -/

namespace Sys2Proof.Machine

/-- One step: the next host access or platform reset (R17, R52, R111). -/
def step (s : State) : Host.Outcome State Fault Refusal := takeInput s

/-- `s` with the write of a command word to CMD as the host's next access: what the block fetches next (R17). The
word is an opcode-table row's bits `w`, of which the row gives `nbits` (log entry 2). -/
def State.withFetchWord (s : State) (nbits w : Nat) : State :=
  setPending s (commandAccess s.params (tableWord nbits w) :: s.pending)

end Sys2Proof.Machine
end

