-- ==== Sys2Proof/Safety.lean ====
section
/-! DEFINITION. What counts as a safe run, in the terms claims use: the invariant of reachable states, a step that
completes, and what two states have in common. -/

namespace Sys2Proof.Safety

open Sys2Proof Sys2Proof.Machine

/-- A step that neither faults nor is refused. -/
def Completes (s : State) : Prop := ∃ t, step s = .next t

/-- The next input is the platform's reset. -/
def ResetNext (s : State) : Prop := ∃ rest, s.pending = .reset :: rest

/-- The next input is the host's write of the command word `w` to CMD. -/
def CommandNext (s : State) (w : Word) : Prop := ∃ rest, s.pending = .access (.write 32 s.params.base w) :: rest

/-- The invariant of R24: what CFG_VALID = 1 says of the active configuration. -/
structure ActiveValid (s : State) : Prop where
  amin_finite : (activeAmin s).isFinite = true
  amax_finite : (activeAmax s).isFinite = true
  ordered : F64.lt (activeAmin s) (activeAmax s) = true
  sum_finite : F64.isFinite (F64.add (activeAmax s) (activeAmin s)) = true
  spb_pos : 1 ≤ activeSpb s
  spb_le : activeSpb s ≤ 2 ^ 31 - 1

/-- What R69 and R70 ask of the staged parameters before CONFIG commits them. -/
structure StagedValid (s : State) : Prop where
  amin_finite : (stagedAmin s).isFinite = true
  amax_finite : (stagedAmax s).isFinite = true
  ordered : F64.lt (stagedAmin s) (stagedAmax s) = true
  sum_finite : F64.isFinite (F64.add (stagedAmax s) (stagedAmin s)) = true
  spb_pos : 1 ≤ s.sSpb.toNat
  spb_le : s.sSpb.toNat ≤ 2 ^ 31 - 1

/-- A CMD value that R62 calls illegal: RSVD, then OPC, then ARG of CONFIG, RECEIVE and EMIT. -/
def IllegalWord (w : Word) : Prop :=
  w.toNat / 2 ^ 16 ≠ 0 ∨ w.toNat % 256 = 0 ∨ 6 ≤ w.toNat % 256 ∨ (w.toNat % 256 ≤ 3 ∧ w.toNat / 256 % 256 ≠ 0)

/-- An offset of a byte of BITBUF or OUTBUF (R37). -/
def InBuffers (p : Config.Params) (a : Nat) : Prop :=
  (bitbufBase ≤ a ∧ a < bitbufBase + p.maxBits / 8) ∨ (outbufBase ≤ a ∧ a < outbufBase + 8 * p.maxSamples)

/-- The offset of each read-write register (R37). -/
def ReadWriteAt (r : Reg) (off : Nat) : Prop :=
  (r = .sScheme ∧ off = 0x008) ∨ (r = .sSpb ∧ off = 0x00C) ∨ (r = .sAminLo ∧ off = 0x010) ∨
    (r = .sAminHi ∧ off = 0x014) ∨ (r = .sAmaxLo ∧ off = 0x018) ∨ (r = .sAmaxHi ∧ off = 0x01C) ∨
    (r = .bitlen ∧ off = 0x038)

/-- The offsets a host may read (R37): every register but CMD, and the two buffers. -/
def Readable (p : Config.Params) (off : Nat) : Prop :=
  off % 4 = 0 ∧ ((0x004 ≤ off ∧ off ≤ 0x04C) ∨ InBuffers p off)

/-- The offsets a host may write (R37): CMD, the read-write registers, BITBUF. -/
def Writable (p : Config.Params) (off : Nat) : Prop :=
  off % 4 = 0 ∧
    (off = 0x000 ∨ (∃ r, ReadWriteAt r off) ∨ (bitbufBase ≤ off ∧ off < bitbufBase + p.maxBits / 8))

/-- The two bytes at `a` and `b` are both written or both not. -/
def WrittenAlike (m : Memory) (a b : Nat) : Prop := (Memory.read m a).isSome = (Memory.read m b).isSome

/-- What holds of every state a run reaches from reset. -/
structure StateInv (s : State) : Prop where
  /-- The parameters are legal (R8). -/
  params_legal : s.params.Legal
  /-- The memory is in its canonical form. -/
  memory_wf : Memory.wf s.mem
  /-- Only bytes of BITBUF and OUTBUF are held (R36, R37). -/
  memory_mapped : ∀ c ∈ s.mem, InBuffers s.params c.1
  /-- `written` flags are set for whole words (R30). -/
  words_whole : ∀ a, bitbufBase ≤ a → a < bitbufBase + s.params.maxBits / 8 → WrittenAlike s.mem a (a / 4 * 4)
  /-- R24. -/
  active_valid : s.cfgValid = true → ActiveValid s
  /-- Codes 9 to 255 are never produced (R97). -/
  errcode_le : s.errcode.toNat ≤ 8
  /-- OUTLEN is a length that fits OUTBUF (R27, R75). -/
  outlen_le : s.outlen.toNat ≤ s.params.maxSamples
  /-- OUTLEN is 0 until a RECEIVE succeeds (R27, R112) and positive after (R75, R77). -/
  outlen_pos : s.outValid = true ↔ 0 < s.outlen.toNat
  /-- Every byte of the stored output has been written (R19, R31). -/
  output_stored : ∀ a, outbufBase ≤ a → a < outbufBase + 8 * s.outlen.toNat → (Memory.read s.mem a).isSome = true
  /-- Only slots that exist are connected (R26). -/
  consumers_legal : s.consumers &&& ~~~consumerMask s.params = 0
  /-- Every emission names a slot, only slots that exist, and carries samples (R32, R91). -/
  trace_legal : ∀ e ∈ s.trace, e.mask ≠ 0 ∧ e.mask &&& ~~~consumerMask s.params = 0 ∧ e.samples ≠ []
  /-- No step leaves a state whose fault mark is set (R33). -/
  unmarked : s.faultMark = false

/-- `x` is the exact value `num / den` (in units of 2^-1074) as R10 rounds it: no NaN; finite up to half a unit above
the greatest finite number; the sign of the value, or `zeroSign` where the value is 0; no finite number is nearer, and
where another one is as near the encoding is even. -/
structure RoundsTo (num : Int) (den : Nat) (zeroSign : Bool) (x : F64) : Prop where
  not_nan : x.isNaN = false
  finite_iff : x.isFinite = true ↔ num.natAbs < (2 ^ 54 - 1) * 2 ^ 2044 * den
  sign_eq : x.sign = if num = 0 then zeroSign else decide (num < 0)
  nearest : x.isFinite = true → ∀ y : F64, y.isFinite = true →
    (x.units * den - num).natAbs ≤ (y.units * den - num).natAbs
  ties_even : x.isFinite = true → ∀ y : F64, y.isFinite = true →
    (x.units * den - num).natAbs = (y.units * den - num).natAbs → y.units ≠ x.units → x.toNat % 2 = 0

/-- Equal staging registers (R21 to R23) and BITLEN (R25): what only the host writes. -/
def SameStaging (s t : State) : Prop :=
  t.sScheme = s.sScheme ∧ t.sSpb = s.sSpb ∧ t.sAminLo = s.sAminLo ∧ t.sAminHi = s.sAminHi ∧
    t.sAmaxLo = s.sAmaxLo ∧ t.sAmaxHi = s.sAmaxHi ∧ t.bitlen = s.bitlen

/-- Equal active configuration (R24). -/
def SameActive (s t : State) : Prop :=
  t.aScheme = s.aScheme ∧ t.aSpb = s.aSpb ∧ t.aAminLo = s.aAminLo ∧ t.aAminHi = s.aAminHi ∧
    t.aAmaxLo = s.aAmaxLo ∧ t.aAmaxHi = s.aAmaxHi

/-- Every byte of BITBUF and OUTBUF reads the same, the unwritten ones included. -/
def SameMemory (s t : State) : Prop := ∀ a, Memory.read t.mem a = Memory.read s.mem a

/-- Equal parameters and equal fields of the model's own, the fault mark among them. -/
def SameModel (s t : State) : Prop :=
  t.params = s.params ∧ t.faultMark = s.faultMark ∧ t.pending = s.pending ∧ t.reads = s.reads ∧ t.draws = s.draws

/-- The code of a scheme in A_SCHEME (R61). -/
def SchemeCode (sch : Scheme) (code : Nat) : Prop :=
  (sch = .nrz ∧ code = 0) ∨ (sch = .nrzt ∧ code = 1) ∨ (sch = .rz ∧ code = 2)

/-- The value a host read of the register at each offset of R37 returns, in terms of the fields of the state: the
fields of STATUS (R19), CONSUMERS (R26) and PARAMS (R29) at their bits, the other registers whole. -/
def RegisterReadsAs (s : State) (off : Nat) (v : Word) : Prop :=
  (off = 0x004 ∧ v.toNat =
    s.lastOpc.toNat * 2 ^ 16 + s.errcode.toNat * 2 ^ 8 + s.outValid.toNat * 2 + s.cfgValid.toNat) ∨
  (off = 0x008 ∧ v = s.sScheme) ∨ (off = 0x00C ∧ v = s.sSpb) ∨ (off = 0x010 ∧ v = s.sAminLo) ∨
  (off = 0x014 ∧ v = s.sAminHi) ∨ (off = 0x018 ∧ v = s.sAmaxLo) ∨ (off = 0x01C ∧ v = s.sAmaxHi) ∨
  (off = 0x020 ∧ v = s.aScheme) ∨ (off = 0x024 ∧ v = s.aSpb) ∨ (off = 0x028 ∧ v = s.aAminLo) ∨
  (off = 0x02C ∧ v = s.aAminHi) ∨ (off = 0x030 ∧ v = s.aAmaxLo) ∨ (off = 0x034 ∧ v = s.aAmaxHi) ∨
  (off = 0x038 ∧ v = s.bitlen) ∨
  (off = 0x03C ∧ ∀ c, v.getLsbD c = (s.consumers.getLsbD c && decide (c < s.params.maxConsumers))) ∨
  (off = 0x040 ∧ v = s.outlen) ∨ (off = 0x044 ∧ v.toNat = s.params.maxBits) ∨
  (off = 0x048 ∧ v.toNat = s.params.maxSamples) ∨
  (off = 0x04C ∧ v.toNat = s.params.profile.toNat * 2 ^ 12 +
    (if s.params.boundary = .ramp then 2 ^ 8 else 0) + s.params.maxConsumers)

/-- The conditions of R75, R76 under which a RECEIVE succeeds: configured, N bits, a known scheme, capacity, and
`bits` the N written bits of BITBUF. -/
structure Receivable (s : State) (sch : Scheme) (bits : List Bool) : Prop where
  configured : s.cfgValid = true
  nonempty : 0 < s.bitlen.toNat
  scheme_known : SchemeCode sch s.aScheme.toNat
  bits_fit : s.bitlen.toNat ≤ s.params.maxBits
  samples_fit : s.bitlen.toNat * s.aSpb.toNat ≤ s.params.maxSamples
  bits_length : bits.length = s.bitlen.toNat
  bits_written : ∀ i, i < bits.length → bitRead s.mem i = bits[i]?

end Sys2Proof.Safety
end

