-- ==== Sys2Proof/Certificates/Slice0/Obligations.lean ====
section
/-! DEFINITION. The statements for the provers, in the order of the spec's files. -/

open Sys2Proof Sys2Proof.Machine Sys2Proof.Safety

/-! ## Encoding (30_encoding.md) -/

/-- R57, R58: decoding inverts encoding, for every command and every slot its field admits. -/
def Obligations.DecodeInvertsEncode : Prop :=
  ∀ i : Instr, i.WellFormed → decode (encode i) = .ok i

/-- R57 to R59: a word that decodes is the one encoding of its command, so no bit of it is ignored. -/
def Obligations.EncodeInvertsDecode : Prop :=
  ∀ (w : Word) (i : Instr), decode w = .ok i → i.WellFormed ∧ encode i = w

/-- R58: the command words of the opcode map and of 95_test_vectors.md sections 2.6 and 2.7. -/
def Obligations.SpecCommandWordsDecode : Prop :=
  decode 0x00000001 = .ok .config ∧ decode 0x00000002 = .ok .receive ∧ decode 0x00000003 = .ok .emit ∧
    decode 0x00000204 = .ok (.connect 2) ∧ decode 0x00000105 = .ok (.disconnect 1)

/-- R62: the illegal CMD values raise IllegalCommand and change nothing else, every other value is a command, and a
slot that does not exist is a legal encoding. -/
def Obligations.IllegalWordsRaiseIllegalCommand : Prop :=
  ∀ (s : State) (w : Word),
    (IllegalWord w → performCommand s w = .next { s with lastOpc := w.extractLsb' 0 8, errcode := 7 }) ∧
    (¬IllegalWord w → ∃ i, decode w = .ok i) ∧
    (¬IllegalWord w → 4 ≤ w.toNat % 256 → s.params.maxConsumers ≤ w.toNat / 256 →
      performCommand s w = .next { s with lastOpc := w.extractLsb' 0 8, errcode := 8 })

/-- R17, R49, R59: a step whose next input is the write of a command word to CMD writes LAST_OPC and is `exec` of the
decoded command; an undecodable word raises IllegalCommand. -/
def Obligations.StepPerformsDecodedCommand : Prop :=
  ∀ (s : State) (rest : List Input) (w : Word), s.faultMark = false →
    s.pending = .access (.write 32 s.params.base w) :: rest →
    (∀ i, decode w = .ok i → step s = exec i { s with pending := rest, lastOpc := w.extractLsb' 0 8 }) ∧
    (∀ e, decode w = .error e →
      step s = .next { s with pending := rest, lastOpc := w.extractLsb' 0 8, errcode := 7 })

/-! ## Configuration (40_configuration.md) -/

/-- R72: CONFIG commits the staged parameters when both checks pass, and only then. -/
def Obligations.ConfigCommitsStaging : Prop :=
  ∀ s : State,
    (StagedValid s → exec .config s = .next
      { s with
        aScheme := s.sScheme
        aSpb := s.sSpb
        aAminLo := s.sAminLo
        aAminHi := s.sAminHi
        aAmaxLo := s.sAmaxLo
        aAmaxHi := s.sAmaxHi
        cfgValid := true
        errcode := 0 }) ∧
    (¬StagedValid s → ∃ t, exec .config s = .next t ∧ SameActive s t ∧ t.cfgValid = s.cfgValid)

/-- R69: CONFIG raises InvalidAmplitudeRange unless both amplitudes are finite, Amax > Amin, and their sum is finite. The
staged amplitudes are `HI ++ LO` of their register pairs (R23). -/
def Obligations.ConfigChecksAmplitudes : Prop :=
  ∀ s : State,
    (stagedAmin s = s.sAminHi ++ s.sAminLo ∧ stagedAmax s = s.sAmaxHi ++ s.sAmaxLo) ∧
    (¬((stagedAmin s).isFinite = true ∧ (stagedAmax s).isFinite = true ∧
        F64.lt (stagedAmin s) (stagedAmax s) = true ∧ F64.isFinite (F64.add (stagedAmax s) (stagedAmin s)) = true) →
      exec .config s = .next { s with errcode := 3 }) ∧
    ((stagedAmin s).isFinite = true → (stagedAmax s).isFinite = true →
      F64.lt (stagedAmin s) (stagedAmax s) = true → F64.isFinite (F64.add (stagedAmax s) (stagedAmin s)) = true →
      ∃ t, exec .config s = .next t ∧ t.errcode ≠ 3)

/-- R70 (after the amplitude check, R99): CONFIG raises InvalidSamplesPerBit unless 1 ≤ S_SPB ≤ 2^31 - 1. -/
def Obligations.ConfigChecksSamplesPerBit : Prop :=
  ∀ s : State, (stagedAmin s).isFinite = true → (stagedAmax s).isFinite = true →
    F64.lt (stagedAmin s) (stagedAmax s) = true → F64.isFinite (F64.add (stagedAmax s) (stagedAmin s)) = true →
    (¬(1 ≤ s.sSpb.toNat ∧ s.sSpb.toNat ≤ 2 ^ 31 - 1) → exec .config s = .next { s with errcode := 4 }) ∧
    (1 ≤ s.sSpb.toNat → s.sSpb.toNat ≤ 2 ^ 31 - 1 → ∃ t, exec .config s = .next t ∧ t.errcode ≠ 4)

/-- R73: CONFIG writes the active configuration and STATUS only; the stored output, which a later EMIT pushes, stays. -/
def Obligations.ConfigFrame : Prop :=
  ∀ s : State, ∃ t, exec .config s = .next t ∧ SameStaging s t ∧ SameMemory s t ∧ t.outlen = s.outlen ∧
    t.outValid = s.outValid ∧ t.lastOpc = s.lastOpc ∧ t.consumers = s.consumers ∧ t.trace = s.trace ∧
    SameModel s t ∧ storedOutput t = storedOutput s

/-! ## RECEIVE (41_modulation.md) -/

/-- R75: the checks of RECEIVE, in their order, made before BITBUF is read. -/
def Obligations.ReceiveValidationOrder : Prop :=
  ∀ s : State,
    (s.cfgValid = false → exec .receive s = .next { s with errcode := 6 }) ∧
    (s.cfgValid = true → s.bitlen.toNat = 0 → exec .receive s = .next { s with errcode := 1 }) ∧
    (s.cfgValid = true → s.bitlen.toNat ≠ 0 → 3 ≤ s.aScheme.toNat → exec .receive s = .next { s with errcode := 2 }) ∧
    (s.cfgValid = true → s.bitlen.toNat ≠ 0 → s.aScheme.toNat ≤ 2 →
      (s.params.maxBits < s.bitlen.toNat ∨ s.params.maxSamples < s.bitlen.toNat * s.aSpb.toNat) →
      exec .receive s = .next { s with errcode := 5 }) ∧
    (s.cfgValid = true → s.bitlen.toNat ≠ 0 → s.aScheme.toNat ≤ 2 → s.bitlen.toNat ≤ s.params.maxBits →
      s.bitlen.toNat * s.aSpb.toNat ≤ s.params.maxSamples → ∀ t, exec .receive s = .next t → t.errcode = 0)

/-- R45: a RECEIVE whose checks pass faults exactly if one of the bits below BITLEN was never written. -/
def Obligations.ReceiveFaultsOnUnwrittenInput : Prop :=
  ∀ s : State, s.cfgValid = true → 0 < s.bitlen.toNat → s.aScheme.toNat ≤ 2 → s.bitlen.toNat ≤ s.params.maxBits →
    s.bitlen.toNat * s.aSpb.toNat ≤ s.params.maxSamples →
    (exec .receive s = .fault .unwrittenInput ↔ ∃ i, i < s.bitlen.toNat ∧ bitRead s.mem i = none)

/-- R76: a successful RECEIVE stores its samples in OUTBUF (no other byte), sets OUTLEN, OUT_VALID and ERRCODE, and
delivers to the connected slots; on an error no part of this happens. The operands are assembled as R60 says: the
amplitudes are `HI ++ LO` of their register pairs, the scheme codes those of R61 (`SchemeCode`). -/
def Obligations.ReceiveCommitsOutput : Prop :=
  ∀ s : State,
    (activeAmin s = s.aAminHi ++ s.aAminLo ∧ activeAmax s = s.aAmaxHi ++ s.aAmaxLo ∧ activeSpb s = s.aSpb.toNat) ∧
    (∀ (sch : Scheme) (bits : List Bool), Receivable s sch bits → ∃ t, exec .receive s = .next t ∧
      (∀ j x, (modulate s.params sch (activeAmin s) (activeAmax s) (activeSpb s) bits)[j]? = some x →
        outSample t.mem (outbufBase + 8 * j) = x) ∧
      (∀ a, a < outbufBase ∨ outbufBase + 8 * (s.bitlen.toNat * s.aSpb.toNat) ≤ a →
        Memory.read t.mem a = Memory.read s.mem a) ∧
      t.outlen = BitVec.ofNat 32 (s.bitlen.toNat * s.aSpb.toNat) ∧ t.outValid = true ∧ t.errcode = 0 ∧
      t.trace = s.trace ++ (if consumersReg s = 0 then [] else
        [{ mask := consumersReg s, samples := modulate s.params sch (activeAmin s) (activeAmax s) (activeSpb s) bits }])) ∧
    (∀ t, exec .receive s = .next t → t.errcode ≠ 0 → t = { s with errcode := t.errcode })

/-- Frame of RECEIVE: it writes OUTBUF below OUTLEN = N*S, OUTLEN, OUT_VALID, ERRCODE and the trace only. -/
def Obligations.ReceiveFrame : Prop :=
  ∀ s t : State, exec .receive s = .next t →
    SameStaging s t ∧ SameActive s t ∧ t.cfgValid = s.cfgValid ∧ t.lastOpc = s.lastOpc ∧ t.consumers = s.consumers ∧
    SameModel s t ∧
    (∀ a, a < outbufBase ∨ outbufBase + 8 * (s.bitlen.toNat * s.aSpb.toNat) ≤ a →
      Memory.read t.mem a = Memory.read s.mem a)

/-- R77: every scheme gives exactly S samples per input bit, in input order: those of bit `i` are its wave. -/
def Obligations.OutputHoldsWavesInOrder : Prop :=
  ∀ (p : Config.Params) (sch : Scheme) (amin amax : F64) (S : Nat) (bits : List Bool),
    (modulate p sch amin amax S bits).length = bits.length * S ∧
    ∀ i b, bits[i]? = some b → ((modulate p sch amin amax S bits).drop (i * S)).take S =
      match sch with
      | .nrz => List.replicate S (level amin amax b)
      | .nrzt => nrztWave p amin amax S (if i = 0 then none else bits[i - 1]?) b bits[i + 1]?
      | .rz => rzWave amax S b

/-- R78: the segments are k, k and L, they partition the S samples, and L is k, k + 1 or k + 2. -/
def Obligations.SegmentSizes : Prop :=
  ∀ S : Nat, 1 ≤ S → segK S = S / 3 ∧ segK S + segK S + segL S = S ∧ segL S = segK S + S % 3 ∧ 1 ≤ segL S ∧
    segK S ≤ segL S ∧ segL S ≤ segK S + 2

/-- R81: the midpoint is one addition and one halving; it is finite in every configured state. -/
def Obligations.MidpointIsFinite : Prop :=
  ∀ s : State, StateInv s → s.cfgValid = true →
    midLevel (activeAmin s) (activeAmax s) = F64.div (F64.add (activeAmax s) (activeAmin s)) 0x4000000000000000 ∧
    (midLevel (activeAmin s) (activeAmax s)).isFinite = true

/-- R82: every NRZ sample is the bit-exact level of its own bit alone. -/
def Obligations.NrzSamples : Prop :=
  ∀ (amin amax : F64) (S : Nat) (bits : List Bool),
    (nrz amin amax S bits).length = bits.length * S ∧
    ∀ i j b, bits[i]? = some b → j < S → (nrz amin amax S bits)[i * S + j]? = some (if b then amax else amin)

/-- R83: every NRZT sample: a ramp sample in the first or last segment where the neighbour differs, else the level. -/
def Obligations.NrztSamples : Prop :=
  ∀ (p : Config.Params) (amin amax : F64) (S : Nat) (bits : List Bool) (i j : Nat) (b : Bool), bits[i]? = some b →
    j < S → (nrzt p amin amax S bits)[i * S + j]? = some
      (if j < S / 3 then
        if (0 < i ∧ bits[i - 1]? ≠ some b) ∨ (i = 0 ∧ p.boundary = .ramp) then
          rampUp p.profile j (S / 3) (midLevel amin amax) (if b then amax else amin)
        else if b then amax else amin
      else if j < 2 * (S / 3) then if b then amax else amin
      else if (i + 1 < bits.length ∧ bits[i + 1]? ≠ some b) ∨ (i + 1 = bits.length ∧ p.boundary = .ramp) then
        rampDown p.profile (j - 2 * (S / 3)) (S - 2 * (S / 3)) (midLevel amin amax) (if b then amax else amin)
      else if b then amax else amin)

/-- R84: under FLAT the outer segments of the first and last bit are flat at their level, under RAMP they are ramps. -/
def Obligations.NrztBoundaryPolicy : Prop :=
  ∀ (p : Config.Params) (amin amax : F64) (S : Nat) (bits : List Bool) (first last : Bool) (j : Nat),
    bits.head? = some first → bits.getLast? = some last →
    (j < S / 3 → (nrzt p amin amax S bits)[j]? = some (match p.boundary with
      | .flat => level amin amax first
      | .ramp => rampUp p.profile j (S / 3) (midLevel amin amax) (level amin amax first))) ∧
    (j < S - 2 * (S / 3) → (nrzt p amin amax S bits)[(bits.length - 1) * S + 2 * (S / 3) + j]? = some
      (match p.boundary with
      | .flat => level amin amax last
      | .ramp => rampDown p.profile j (S - 2 * (S / 3)) (midLevel amin amax) (level amin amax last)))

/-- R85 for every documented profile 1 to 15, whatever its free values (log entry 11). The rising ramp keeps range and
direction; it is linear: one straight line in `j`, from the midpoint's side toward the level and not beyond it, is met
by all its samples but for the rounding that log entry 11 allows. For every profile, REF too, the falling ramp is the
time-reverse of the rising one. -/
def Obligations.RampProfilesKeepLimits : Prop :=
  ∀ (profile : BitVec 4) (k : Nat) (mid lvl : F64),
    (profile ≠ 0 → mid.isNaN = false → lvl.isNaN = false → ∀ j < k,
      between mid lvl (rampUp profile j k mid lvl) = true ∧
      (j + 1 < k → between (rampUp profile j k mid lvl) lvl (rampUp profile (j + 1) k mid lvl) = true)) ∧
    (profile ≠ 0 → mid.isFinite = true → lvl.isFinite = true →
      ∃ p q d : Nat, 0 < q ∧ 0 < d ∧ (∀ j < k, p + q * j ≤ d) ∧ ∀ j < k,
        ((rampUp profile j k mid lvl).units * d - (mid.units * d + (lvl.units - mid.units) * (p + q * j : Nat))).natAbs ≤
          (k + 8) * max mid.ulp lvl.ulp * d) ∧
    ∀ j, rampDown profile j k mid lvl = rampUp profile (k - 1 - j) k mid lvl

/-- R86: under REF the rising ramp starts at the midpoint and the falling ramp ends there. In value always; bit for bit
unless the midpoint is -0.0; and there the formula gives -0.0 toward a level below it and +0.0 toward any other (log
entry 12). -/
def Obligations.RefRampStartsAtMidpoint : Prop :=
  ∀ (amin amax : F64) (b : Bool) (k : Nat), amin.isFinite = true → amax.isFinite = true →
    F64.isFinite (F64.add amax amin) = true → 0 < k →
    F64.eq (refRampUp 0 k (midLevel amin amax) (level amin amax b)) (midLevel amin amax) = true ∧
    F64.eq (refRampDown (k - 1) k (midLevel amin amax) (level amin amax b)) (midLevel amin amax) = true ∧
    (midLevel amin amax ≠ 0x8000000000000000 →
      refRampUp 0 k (midLevel amin amax) (level amin amax b) = midLevel amin amax ∧
      refRampDown (k - 1) k (midLevel amin amax) (level amin amax b) = midLevel amin amax) ∧
    (midLevel amin amax = 0x8000000000000000 → (level amin amax b).units < 0 →
      refRampUp 0 k (midLevel amin amax) (level amin amax b) = 0x8000000000000000 ∧
      refRampDown (k - 1) k (midLevel amin amax) (level amin amax b) = 0x8000000000000000) ∧
    (midLevel amin amax = 0x8000000000000000 → 0 ≤ (level amin amax b).units →
      refRampUp 0 k (midLevel amin amax) (level amin amax b) = 0x0000000000000000 ∧
      refRampDown (k - 1) k (midLevel amin amax) (level amin amax b) = 0x0000000000000000)

/-- R85 and R86. Under REF (profile 0) the ramp samples are R86's formulas, each operation rounded. They keep the range
and the direction of R85: every ramp sample lies between the midpoint and the level, and each lies from the one before
it toward the level. They are linear: sample `j` of `k` meets the line `mid + (lvl - mid) * j / k` but for the rounding
that log entry 11 allows every profile. -/
def Obligations.RefRampKeepsLimits : Prop :=
  (∀ (j k : Nat) (mid lvl : F64),
    rampUp 0 j k mid lvl = F64.add mid (F64.mul (F64.sub lvl mid) (F64.div (F64.ofNat j) (F64.ofNat k))) ∧
    rampDown 0 j k mid lvl =
      F64.add mid (F64.mul (F64.sub lvl mid) (F64.div (F64.ofNat (k - 1 - j)) (F64.ofNat k)))) ∧
  ∀ (amin amax : F64) (b : Bool) (k j : Nat), amin.isFinite = true → amax.isFinite = true →
    F64.lt amin amax = true → F64.isFinite (F64.add amax amin) = true → j < k → k ≤ 2 ^ 28 →
    between (midLevel amin amax) (level amin amax b) (refRampUp j k (midLevel amin amax) (level amin amax b)) = true ∧
    (j + 1 < k → between (refRampUp j k (midLevel amin amax) (level amin amax b)) (level amin amax b)
      (refRampUp (j + 1) k (midLevel amin amax) (level amin amax b)) = true) ∧
    ((refRampUp j k (midLevel amin amax) (level amin amax b)).units * k - ((midLevel amin amax).units * k +
      ((level amin amax b).units - (midLevel amin amax).units) * j)).natAbs ≤
      (k + 8) * max (midLevel amin amax).ulp (level amin amax b).ulp * k

/-- R87, under REF. At S ≥ 3 two unequal neighbours meet at the midpoint: in value, and bit for bit unless the midpoint
is -0.0 (log entry 12). Two equal ones meet at their level, where at S = 1 or 2 the second one's only segment is its
last, so that its sample is its level only if that segment is flat (R83, log entry 21). Every middle segment is flat at
its level. -/
def Obligations.NrztIsContinuous : Prop :=
  ∀ (p : Config.Params) (amin amax : F64) (S : Nat) (bits : List Bool) (i : Nat) (b c : Bool), p.profile = 0 →
    amin.isFinite = true → amax.isFinite = true → F64.isFinite (F64.add amax amin) = true → 1 ≤ S →
    bits[i]? = some b → bits[i + 1]? = some c →
    ∃ x y, (nrzt p amin amax S bits)[i * S + S - 1]? = some x ∧ (nrzt p amin amax S bits)[(i + 1) * S]? = some y ∧
      (3 ≤ S → b ≠ c → F64.eq x (midLevel amin amax) = true ∧ F64.eq y (midLevel amin amax) = true ∧
        (midLevel amin amax ≠ 0x8000000000000000 → x = midLevel amin amax ∧ y = midLevel amin amax)) ∧
      (b = c → x = level amin amax b) ∧
      (b = c → 3 ≤ S ∨ bits[i + 2]? = some c ∨ (bits[i + 2]? = none ∧ p.boundary = .flat) → y = level amin amax b) ∧
      (∀ j, S / 3 ≤ j → j < 2 * (S / 3) → (nrzt p amin amax S bits)[i * S + j]? = some (level amin amax b))

/-- R88: every RZ sample: Amax in the middle segment of a 1 bit, +0.0 elsewhere; Amin is not read. -/
def Obligations.RzSamples : Prop :=
  ∀ (amax : F64) (S : Nat) (bits : List Bool),
    (rz amax S bits).length = bits.length * S ∧
    ∀ i j b, bits[i]? = some b → j < S → (rz amax S bits)[i * S + j]? =
      some (if S / 3 ≤ j ∧ j < 2 * (S / 3) ∧ b = true then amax else 0x0000000000000000)

/-- R10: rounding gives a nearest finite number, and of two nearest ones the even one; it overflows to infinity
exactly from half a unit in the last place above the greatest finite number. Magnitudes are in units of 2^-1074. This is
about `roundMag` alone; `OperationsRoundToNearest` is about the operations. (IEEE 754 is the spec's G1: log entry 9.) -/
def Obligations.RoundingIsNearestEven : Prop :=
  ∀ num den : Nat, 0 < den →
    (F64.roundMag num den = F64.infMag ↔ (2 ^ 54 - 1) * 2 ^ 2044 * den ≤ num) ∧
    (F64.roundMag num den < F64.infMag → ∀ y : F64, y.isFinite = true →
      ((F64.pack false (F64.roundMag num den)).mag * den - num : Int).natAbs ≤ (y.mag * den - num : Int).natAbs ∧
      ((y.mag * den - num : Int).natAbs = ((F64.pack false (F64.roundMag num den)).mag * den - num : Int).natAbs →
        y.mag ≠ (F64.pack false (F64.roundMag num den)).mag → F64.roundMag num den % 2 = 0))

/-- R10: on finite operands `+f`, `-f`, `*f` and `/f` give the exact sum, difference, product and quotient rounded to
nearest, ties to even, with IEEE 754's signs, those of zeros among them; `f64(n)` is exact below 2^53. (IEEE 754 is the
spec's G1 and G3: log entry 9.) -/
def Obligations.OperationsRoundToNearest : Prop :=
  (∀ a b : F64, a.isFinite = true → b.isFinite = true →
    RoundsTo (a.units + b.units) 1 (a.sign && b.sign) (F64.add a b) ∧
    RoundsTo (a.units - b.units) 1 (a.sign && !b.sign) (F64.sub a b) ∧
    RoundsTo (a.units * b.units) (2 ^ 1074) (a.sign != b.sign) (F64.mul a b) ∧
    (b.units ≠ 0 → RoundsTo ((if b.sign then -a.units else a.units) * 2 ^ 1074) b.mag (a.sign != b.sign) (F64.div a b))) ∧
  (∀ n : Nat, n < 2 ^ 53 → (F64.ofNat n).isFinite = true ∧ (F64.ofNat n).sign = false ∧
    (F64.ofNat n).units = n * 2 ^ 1074)

/-- R10: the comparisons are false when either side is a NaN, and otherwise the order of the values: -0.0 and +0.0 are
equal (both are 0 units), an infinity stands beyond every finite number on the side of its sign; `isFinite` holds of
every value but the infinities and NaNs. (IEEE 754 is the spec's G1 and G2: log entry 9.) -/
def Obligations.ComparisonsFollowValues : Prop :=
  ∀ a b : F64,
    (a.isNaN = true ∨ b.isNaN = true → F64.lt a b = false ∧ F64.le a b = false ∧ F64.eq a b = false) ∧
    (a.isFinite = true → b.isFinite = true →
      (F64.lt a b = true ↔ a.units < b.units) ∧ (F64.le a b = true ↔ a.units ≤ b.units) ∧
      (F64.eq a b = true ↔ a.units = b.units)) ∧
    (a.isInf = true → b.isFinite = true →
      F64.lt a b = a.sign ∧ F64.le a b = a.sign ∧ F64.eq a b = false ∧
      F64.lt b a = !a.sign ∧ F64.le b a = !a.sign ∧ F64.eq b a = false) ∧
    (a.isInf = true → b.isInf = true →
      F64.lt a b = (a.sign && !b.sign) ∧ F64.le a b = (a.sign || !b.sign) ∧ F64.eq a b = (a.sign == b.sign)) ∧
    a.isFinite = (!a.isInf && !a.isNaN)

/-! ## EMIT, CONNECT, DISCONNECT (42_output.md) -/

/-- R92: EMIT delivers OUTBUF[0..OUTLEN-1] to the connected slots; without an output it raises InvalidSignal. -/
def Obligations.EmitDeliversStoredOutput : Prop :=
  ∀ s : State,
    (s.outValid = true → exec .emit s = .next
      { s with
        errcode := 0
        trace := s.trace ++ (if consumersReg s = 0 then [] else
          [{ mask := consumersReg s
             samples := (List.range s.outlen.toNat).map fun j => outSample s.mem (outbufBase + 8 * j) }]) }) ∧
    (s.outValid = false → exec .emit s = .next { s with errcode := 1 })

/-- R92: EMIT reads OUTBUF below OUTLEN, OUT_VALID and CONSUMERS only: two states that agree on these (and on the
trace so far) make the same emission, whatever BITBUF, BITLEN and the active configuration hold. -/
def Obligations.EmitIgnoresInputs : Prop :=
  ∀ s s' t : State, s'.params = s.params → s'.outValid = s.outValid → s'.outlen = s.outlen →
    s'.consumers = s.consumers → s'.trace = s.trace →
    (∀ a, outbufBase ≤ a → a < outbufBase + 8 * s.outlen.toNat → Memory.read s'.mem a = Memory.read s.mem a) →
    exec .emit s = .next t →
    ∃ t', exec .emit s' = .next t' ∧ t'.trace = t.trace ∧ t'.errcode = t.errcode

/-- R93: CONNECT c connects slot c, changes no other slot, makes no emission; an already connected slot stays so; a
slot that does not exist raises InvalidConsumer. -/
def Obligations.ConnectRegistersSlot : Prop :=
  ∀ (s : State) (c : Nat), s.params.Legal →
    (c < s.params.maxConsumers → ∃ t, exec (.connect c) s = .next t ∧ t.errcode = 0 ∧
      (∀ d, (consumersReg t).getLsbD d = (decide (d = c) || (consumersReg s).getLsbD d)) ∧
      t = { s with consumers := t.consumers, errcode := 0 }) ∧
    (s.params.maxConsumers ≤ c → exec (.connect c) s = .next { s with errcode := 8 })

/-- R94: DISCONNECT c disconnects slot c, changes no other slot and no emission already made; a slot that does not
exist raises InvalidConsumer. -/
def Obligations.DisconnectDeregistersSlot : Prop :=
  ∀ (s : State) (c : Nat), s.params.Legal →
    (c < s.params.maxConsumers → ∃ t, exec (.disconnect c) s = .next t ∧ t.errcode = 0 ∧
      (∀ d, (consumersReg t).getLsbD d = (!decide (d = c) && (consumersReg s).getLsbD d)) ∧
      t = { s with consumers := t.consumers, errcode := 0 }) ∧
    (s.params.maxConsumers ≤ c → exec (.disconnect c) s = .next { s with errcode := 8 })

/-- Frame of EMIT, CONNECT and DISCONNECT: they store to no byte; EMIT writes ERRCODE and the trace only, the other two
ERRCODE and CONSUMERS only. -/
def Obligations.OutputCommandsFrame : Prop :=
  ∀ (s t : State) (i : Instr), (i = .emit ∨ ∃ c, i = .connect c ∨ i = .disconnect c) → exec i s = .next t →
    SameStaging s t ∧ SameActive s t ∧ t.cfgValid = s.cfgValid ∧ t.outValid = s.outValid ∧ t.lastOpc = s.lastOpc ∧
    t.outlen = s.outlen ∧ SameMemory s t ∧ SameModel s t ∧ (i = .emit → t.consumers = s.consumers) ∧
    (i ≠ .emit → t.trace = s.trace)

/-- R32, R50, R91: a step other than a reset leaves the trace as it is or appends one entry, to the connected slots
(one at least), and only a RECEIVE or an EMIT does. -/
def Obligations.TraceGrowsByDeliveryOnly : Prop :=
  ∀ s t : State, step s = .next t → ¬ResetNext s →
    t.trace = s.trace ∨
    ((CommandNext s 0x00000002 ∨ CommandNext s 0x00000003) ∧ consumersReg s ≠ 0 ∧
      ∃ x, t.trace = s.trace ++ [{ mask := consumersReg s, samples := x }])

/-! ## Errors and STATUS (60_exceptions.md, 10_state.md) -/

/-- R98: a command that raises an error changes ERRCODE, to the code of its kind, and LAST_OPC; nothing else. -/
def Obligations.ErrorsChangeOnlyErrcode : Prop :=
  ∀ (s t : State) (w : Word), performCommand s w = .next t → t.errcode ≠ 0 →
    ∃ e, t.errcode = errorCode e ∧ t = { s with lastOpc := w.extractLsb' 0 8, errcode := t.errcode }

/-- R19, R29, R26: the fields of STATUS and PARAMS stand at their bits, and the reserved bits read 0, as do the bits of
CONSUMERS from P_MAX_CONSUMERS on. -/
def Obligations.RegisterFields : Prop :=
  ∀ s : State, s.params.Legal →
    (regRead s .status).toNat = s.lastOpc.toNat * 2 ^ 16 + s.errcode.toNat * 2 ^ 8 + s.outValid.toNat * 2 +
      s.cfgValid.toNat ∧
    (regRead s .params).toNat = s.params.profile.toNat * 2 ^ 12 +
      (if s.params.boundary = .ramp then 2 ^ 8 else 0) + s.params.maxConsumers ∧
    ∀ c, s.params.maxConsumers ≤ c → (regRead s .consumers).getLsbD c = false

/-- R28: MAXBITS and MAXSAMPLES hold the capacities, and no step changes them or PARAMS. -/
def Obligations.ParameterRegistersConstant : Prop :=
  (∀ s t : State, step s = .next t → regRead t .maxBits = regRead s .maxBits ∧
    regRead t .maxSamples = regRead s .maxSamples ∧ regRead t .params = regRead s .params) ∧
  (∀ s : State, s.params.Legal → (regRead s .maxBits).toNat = s.params.maxBits ∧
    (regRead s .maxSamples).toNat = s.params.maxSamples)

/-- R19, R20: CFG_VALID is set by a successful CONFIG only, OUT_VALID by a successful RECEIVE only, and only a reset
clears either. -/
def Obligations.FlagsSetByTheirCommandOnly : Prop :=
  ∀ s t : State, step s = .next t → ¬ResetNext s →
    (t.cfgValid = s.cfgValid ∨ (t.cfgValid = true ∧ CommandNext s 0x00000001 ∧ t.errcode = 0)) ∧
    (t.outValid = s.outValid ∨ (t.outValid = true ∧ CommandNext s 0x00000002 ∧ t.errcode = 0))

/-- R24: the active configuration changes only when CONFIG succeeds (or the platform resets the block), and then to the
staging values, all of it at once. -/
def Obligations.ActiveChangesByConfigOnly : Prop :=
  ∀ s t : State, step s = .next t → ¬ResetNext s →
    SameActive s t ∨
    (CommandNext s 0x00000001 ∧ t.errcode = 0 ∧ t.aScheme = s.sScheme ∧ t.aSpb = s.sSpb ∧
      activeAmin t = stagedAmin s ∧ activeAmax t = stagedAmax s)

/-! ## Host accesses (20_memory.md) -/

/-- R39, R40: a read (a write) is refused exactly if it is not 32 bits wide, not aligned, not mapped, or not allowed in
its direction. That an access at an address below P_BASE is refused too is the model's choice (log entry 15). -/
def Obligations.AccessesRefusedExactly : Prop :=
  ∀ (s : State) (width off addr : Nat) (v : Word), s.params.Legal →
    ((∃ r, hostAccess s (.read width (s.params.base + off)) = .refused r) ↔ ¬(width = 32 ∧ Readable s.params off)) ∧
    ((∃ r, hostAccess s (.write width (s.params.base + off) v) = .refused r) ↔
      ¬(width = 32 ∧ Writable s.params off)) ∧
    (addr < s.params.base → (∃ r, hostAccess s (.read width addr) = .refused r) ∧
      ∃ r, hostAccess s (.write width addr v) = .refused r)

/-- R41: a write of a read-write register stores all 32 bits and has no other effect; a read then returns them. -/
def Obligations.RegisterWriteReadsBack : Prop :=
  ∀ (s : State) (r : Reg) (off : Nat) (v : Word), ReadWriteAt r off →
    ∃ t, hostAccess s (.write 32 (s.params.base + off) v) = .next t ∧
      (∀ r', regRead t r' = if r' = r then v else regRead s r') ∧
      t.mem = s.mem ∧ t.trace = s.trace ∧ t.consumers = s.consumers ∧ SameModel s t ∧
      hostAccess t (.read 32 (s.params.base + off)) =
        .next { t with reads := t.reads ++ [{ off := off, value := v }], draws := t.draws + 1 }

/-- R41, R37: a read of each register of the map, read-only ones too, completes and returns the current value of that
register, written out in the fields of the state (`RegisterReadsAs`); it changes the model's record of reads only. -/
def Obligations.RegisterReadsReturnTheirValue : Prop :=
  ∀ (s : State) (off : Nat), s.params.Legal → off % 4 = 0 → 0x004 ≤ off → off ≤ 0x04C →
    ∃ v, RegisterReadsAs s off v ∧ hostAccess s (.read 32 (s.params.base + off)) =
      .next { s with reads := s.reads ++ [{ off := off, value := v }], draws := s.draws + 1 }

/-- R41: between resets a read-write register changes only by the host's own write of it, to the value written. -/
def Obligations.StagingChangesByOwnWriteOnly : Prop :=
  ∀ (s t : State) (r : Reg) (off : Nat), ReadWriteAt r off → step s = .next t → ¬ResetNext s →
    regRead t r = regRead s r ∨
    ∃ rest, s.pending = .access (.write 32 (s.params.base + off) (regRead t r)) :: rest

/-- R43 (and R30): the write of BITBUF word `w` sets bit `i` to bit `i mod 32` of the value for every `i` of the word,
all 32 then written, and leaves every other bit and every register alone. -/
def Obligations.BitbufWriteLaysOutBits : Prop :=
  ∀ (s : State) (w : Nat) (v : Word), w < s.params.maxBits / 32 →
    ∃ t, hostAccess s (.write 32 (s.params.base + 0x1000 + 4 * w) v) = .next t ∧
      (∀ i, bitRead t.mem i = if i / 32 = w then some (v.getLsbD (i % 32)) else bitRead s.mem i) ∧
      (∀ a, a < 0x1000 + 4 * w ∨ 0x1000 + 4 * w + 4 ≤ a → Memory.read t.mem a = Memory.read s.mem a) ∧
      t = { s with mem := t.mem }

/-- R44: a read of BITBUF word `w` completes and returns, in bit `b`, every bit `32w + b` that is written. -/
def Obligations.BitbufReadReturnsBits : Prop :=
  ∀ (s : State) (w : Nat), w < s.params.maxBits / 32 →
    ∃ v, hostAccess s (.read 32 (s.params.base + 0x1000 + 4 * w)) = .next
        { s with reads := s.reads ++ [{ off := 0x1000 + 4 * w, value := v }], draws := s.draws + 1 } ∧
      ∀ b x, b < 32 → bitRead s.mem (32 * w + b) = some x → v.getLsbD b = x

/-- R46, R47: a read of OUTBUF word `m` completes; if OUT_VALID = 1 and its sample is below OUTLEN it returns that half
of the stored sample. -/
def Obligations.OutbufReadReturnsHalves : Prop :=
  ∀ (s : State) (j h : Nat), StateInv s → j < s.params.maxSamples → h < 2 →
    ∃ v, hostAccess s (.read 32 (s.params.base + 0x10000 + 8 * j + 4 * h)) = .next
        { s with reads := s.reads ++ [{ off := 0x10000 + 8 * j + 4 * h, value := v }], draws := s.draws + 1 } ∧
      (s.outValid = true → j < s.outlen.toNat → v = (outSample s.mem (0x10000 + 8 * j)).extractLsb' (32 * h) 32)

/-- R50: a read changes no state of the block: only the model's record of what was read. -/
def Obligations.ReadsHaveNoSideEffect : Prop :=
  ∀ (s t : State) (width addr : Nat), hostAccess s (.read width addr) = .next t →
    ∃ e, t = { s with reads := s.reads ++ [e], draws := s.draws + 1 }

/-- R55: a host write other than to CMD changes neither the stored output nor any emission already in the trace. -/
def Obligations.HostWritesLeaveOutput : Prop :=
  ∀ (s t : State) (addr : Nat) (v : Word), s.params.Legal → addr ≠ s.params.base →
    hostAccess s (.write 32 addr v) = .next t →
    t.trace = s.trace ∧ storedOutput t = storedOutput s ∧ t.outValid = s.outValid ∧ t.outlen = s.outlen ∧
    SameActive s t ∧ t.cfgValid = s.cfgValid

/-- R55, R115: staging is not active: a RECEIVE does the same whatever the staging registers hold. -/
def Obligations.ReceiveIgnoresStaging : Prop :=
  ∀ (s : State) (sch spb minLo minHi maxLo maxHi : Word),
    (∀ t, exec .receive s = .next t →
      exec .receive { s with sScheme := sch, sSpb := spb, sAminLo := minLo, sAminHi := minHi, sAmaxLo := maxLo,
                             sAmaxHi := maxHi } =
        .next { t with sScheme := sch, sSpb := spb, sAminLo := minLo, sAminHi := minHi, sAmaxLo := maxLo,
                       sAmaxHi := maxHi }) ∧
    (exec .receive s = .fault .unwrittenInput →
      exec .receive { s with sScheme := sch, sSpb := spb, sAminLo := minLo, sAminHi := minHi, sAmaxLo := maxLo,
                             sAmaxHi := maxHi } = .fault .unwrittenInput)

/-! ## Reset, marks, idling (70_reset_and_hazards.md) -/

/-- R112: the platform's reset leaves every register at its reset value, no byte of the buffers written, the trace
empty, the parameters and the fault mark as they were. (That `pending` and `draws` go on and `reads` restarts is the
model's own, log entries 2 to 4.) -/
def Obligations.ResetEstablishesResetState : Prop :=
  (∀ (s : State) (rest : List Input), s.faultMark = false → s.pending = .reset :: rest →
    step s = .next
      { params := s.params, cfgValid := false, outValid := false, errcode := 0, lastOpc := 0, sScheme := 0, sSpb := 0,
        sAminLo := 0, sAminHi := 0, sAmaxLo := 0, sAmaxHi := 0, aScheme := 0, aSpb := 0, aAminLo := 0, aAminHi := 0,
        aAmaxLo := 0, aAmaxHi := 0, bitlen := 0, consumers := 0, outlen := 0, mem := [], trace := [],
        faultMark := false, pending := rest, reads := [], draws := s.draws }) ∧
  (∀ s : State, (resetBlock s).faultMark = s.faultMark) ∧
  (∀ a, Memory.read [] a = none)

/-- R113: right after reset a RECEIVE raises NotConfigured, an EMIT InvalidSignal, a CONFIG InvalidAmplitudeRange, and
no slot is connected, so that no command but a CONNECT makes a delivery possible. -/
def Obligations.AfterResetCommandsFail : Prop :=
  (∀ p : Config.Params,
    exec .receive (State.resetWith p) = .next { State.resetWith p with errcode := 6 } ∧
    exec .emit (State.resetWith p) = .next { State.resetWith p with errcode := 1 } ∧
    exec .config (State.resetWith p) = .next { State.resetWith p with errcode := 3 } ∧
    consumersReg (State.resetWith p) = 0) ∧
  (∀ (s t : State) (i : Instr), consumersReg s = 0 → exec i s = .next t →
    t.trace = s.trace ∧ (consumersReg t = 0 ∨ ∃ c, i = .connect c))

/-- R33: a state whose fault mark is set has no next state, a reset included, and no step sets or clears the mark of
the states it leads to. -/
def Obligations.MarkedStateHasNoStep : Prop :=
  (∀ s : State, s.faultMark = true → step s = .fault .unwrittenInput) ∧
  (∀ s t : State, step s = .next t → t.faultMark = s.faultMark)

/-- R110 (the model's reading, log entry 13): with nothing pending the block holds its state. -/
def Obligations.IdleHoldsState : Prop :=
  ∀ s : State, s.faultMark = false → s.pending = [] → step s = .next s

/-! ## Invariants -/

/-- R24, R26, R27, R30 to R33, R97: every step keeps the invariant of reachable states. -/
def Obligations.StepKeepsInvariant : Prop :=
  ∀ s t : State, StateInv s → step s = .next t → StateInv t

/-- R112: the invariant holds after reset, whatever the parameters. -/
def Obligations.ResetMeetsInvariant : Prop :=
  (∀ p : Config.Params, p.Legal → StateInv (State.resetWith p)) ∧ StateInv State.reset

/-- The memory keeps its canonical form in every step, from any state that has it. -/
def Obligations.StepKeepsMemoryCanonical : Prop :=
  ∀ s t : State, Memory.wf s.mem → step s = .next t → Memory.wf t.mem
end

