-- ==== Sys2Proof/Laws/Binary64.lean ====
section
/-! SUPPORT. Binary64: encodings and values, exactness and monotonicity of rounding, the midpoint, the start of a ramp. -/

namespace Sys2Proof

/-! ## Encodings -/

/-- Bits 62:0, the encoding without its sign. -/
def F64.low (x : F64) : Nat := x.toNat % 2 ^ 63

theorem F64.low_lt (x : F64) : x.low < 2 ^ 63 := Nat.mod_lt _ (by norm_num)

theorem F64.expField_eq (x : F64) : x.expField = x.low / 2 ^ 52 := by
  simp only [F64.expField, F64.low, BitVec.extractLsb'_toNat, Nat.shiftRight_eq_div_pow]
  omega

theorem F64.fraction_eq (x : F64) : x.fraction = x.low % 2 ^ 52 := by
  simp only [F64.fraction, F64.low, BitVec.extractLsb'_toNat, Nat.shiftRight_eq_div_pow]
  omega

theorem F64.fraction_lt (x : F64) : x.fraction < 2 ^ 52 := by rw [F64.fraction_eq]; exact Nat.mod_lt _ (by norm_num)

theorem F64.sign_eq (x : F64) : x.sign = decide (2 ^ 63 ≤ x.toNat) := by
  rw [F64.sign, ← BitVec.msb_eq_getLsbD_last x, BitVec.msb_eq_decide]

/-- A number is finite exactly if its encoding is below that of infinity. -/
theorem F64.isFinite_iff (x : F64) : x.isFinite = true ↔ x.low < F64.infMag := by
  have := x.low_lt
  simp only [F64.isFinite, F64.expField_eq, F64.infMag, bne_iff_ne, ne_eq]
  omega

theorem F64.toNat_pack (neg : Bool) {m : Nat} (h : m < 2 ^ 63) :
    (F64.pack neg m).toNat = (if neg then 2 ^ 63 else 0) + m := by
  have hm : m % 2 ^ 63 = m := Nat.mod_eq_of_lt h
  rw [F64.pack, BitVec.toNat_append, BitVec.toNat_ofNat, hm, ← Nat.shiftLeft_add_eq_or_of_lt h]
  cases neg <;> simp [Nat.shiftLeft_eq]

theorem F64.low_pack (neg : Bool) {m : Nat} (h : m < 2 ^ 63) : (F64.pack neg m).low = m := by
  rw [F64.low, F64.toNat_pack neg h]
  cases neg <;> (simp; try omega)

theorem F64.sign_pack (neg : Bool) {m : Nat} (h : m < 2 ^ 63) : (F64.pack neg m).sign = neg := by
  rw [F64.sign_eq, F64.toNat_pack neg h]
  cases neg <;> (simp; try omega)

/-- A number is its sign and its encoding. -/
theorem F64.pack_self (x : F64) : F64.pack x.sign x.low = x := by
  apply BitVec.eq_of_toNat_eq
  rw [F64.toNat_pack _ x.low_lt, F64.sign_eq, F64.low]
  have := x.isLt
  simp only [decide_eq_true_eq]
  split <;> omega

theorem F64.ext_sign_low {x y : F64} (hs : x.sign = y.sign) (hl : x.low = y.low) : x = y := by
  rw [← F64.pack_self x, ← F64.pack_self y, hs, hl]

theorem F64.roundMag_le (num den : Nat) : F64.roundMag num den ≤ F64.infMag := min_le_right _ _

theorem F64.infMag_lt : F64.infMag < 2 ^ 63 := by norm_num [F64.infMag]

theorem F64.roundMag_lt (num den : Nat) : F64.roundMag num den < 2 ^ 63 :=
  lt_of_le_of_lt (F64.roundMag_le num den) F64.infMag_lt

/-! ## The value of an encoding -/

/-- The magnitude, in units of 2^-1074, that the encoding `n` stands for. -/
def F64.magOf (n : Nat) : Nat := if n / 2 ^ 52 = 0 then n % 2 ^ 52 else (2 ^ 52 + n % 2 ^ 52) * 2 ^ (n / 2 ^ 52 - 1)

theorem F64.mag_eq (x : F64) : x.mag = F64.magOf x.low := by
  rw [F64.mag, F64.magOf, F64.expField_eq, F64.fraction_eq]

/-- A significand `m` of at most 53 bits at scale `e` stands for `m * 2^e`. -/
theorem F64.magOf_scaled {e m : Nat} (hm : m ≤ 2 ^ 53) (h : e = 0 ∨ 2 ^ 52 ≤ m) :
    F64.magOf (e * 2 ^ 52 + m) = m * 2 ^ e := by
  unfold F64.magOf
  rcases Nat.lt_or_ge m (2 ^ 52) with h1 | h1
  · have he : e = 0 := by omega
    subst he
    rw [if_pos (by omega), pow_zero]
    omega
  · rcases Nat.lt_or_ge m (2 ^ 53) with h2 | h2
    · have hq : (e * 2 ^ 52 + m) / 2 ^ 52 = e + 1 := by omega
      have hr : (e * 2 ^ 52 + m) % 2 ^ 52 = m - 2 ^ 52 := by omega
      rw [hq, hr, if_neg (by omega), Nat.add_sub_cancel, show 2 ^ 52 + (m - 2 ^ 52) = m by omega]
    · have hm' : m = 2 ^ 53 := by omega
      have hq : (e * 2 ^ 52 + m) / 2 ^ 52 = e + 2 := by omega
      have hr : (e * 2 ^ 52 + m) % 2 ^ 52 = 0 := by omega
      rw [hq, hr, if_neg (by omega), hm', show e + 2 - 1 = e + 1 by omega, pow_succ 2 e]
      ring

theorem F64.magOf_zero_field {n : Nat} (h : n / 2 ^ 52 = 0) : F64.magOf n = n % 2 ^ 52 := if_pos h

theorem F64.magOf_pos_field {n : Nat} (h : n / 2 ^ 52 ≠ 0) :
    F64.magOf n = (2 ^ 52 + n % 2 ^ 52) * 2 ^ (n / 2 ^ 52 - 1) := if_neg h

/-- A greater encoding stands for a greater magnitude. -/
theorem F64.magOf_strictMono : StrictMono F64.magOf := by
  refine strictMono_nat_of_lt_succ fun n => ?_
  have hlt : n % 2 ^ 52 < 2 ^ 52 := Nat.mod_lt _ (by norm_num)
  have hdm := Nat.div_add_mod n (2 ^ 52)
  by_cases h0 : n / 2 ^ 52 = 0
  · rw [F64.magOf_zero_field h0]
    rcases Nat.lt_or_ge (n % 2 ^ 52 + 1) (2 ^ 52) with h | h
    · rw [F64.magOf_zero_field (by omega)]
      omega
    · have hq : (n + 1) / 2 ^ 52 = 1 := by omega
      rw [F64.magOf_pos_field (by omega), hq, Nat.sub_self, pow_zero, mul_one]
      exact lt_of_lt_of_le hlt (Nat.le_add_right _ _)
  · rw [F64.magOf_pos_field h0, F64.magOf_pos_field (n := n + 1) (by omega)]
    rcases Nat.lt_or_ge (n % 2 ^ 52 + 1) (2 ^ 52) with h | h
    · have hq : (n + 1) / 2 ^ 52 = n / 2 ^ 52 := by omega
      have hr : (n + 1) % 2 ^ 52 = n % 2 ^ 52 + 1 := by omega
      rw [hq, hr]
      exact Nat.mul_lt_mul_of_pos_right (Nat.lt_succ_self _) (by positivity)
    · have hq : (n + 1) / 2 ^ 52 - 1 = n / 2 ^ 52 - 1 + 1 := by omega
      have hr : (n + 1) % 2 ^ 52 = 0 := by omega
      rw [hq, hr, pow_succ]
      calc (2 ^ 52 + n % 2 ^ 52) * 2 ^ (n / 2 ^ 52 - 1) < (2 ^ 52 + 2 ^ 52) * 2 ^ (n / 2 ^ 52 - 1) :=
            Nat.mul_lt_mul_of_pos_right (Nat.add_lt_add_left hlt _) (by positivity)
        _ = (2 ^ 52 + 0) * (2 ^ (n / 2 ^ 52 - 1) * 2) := by ring

/-! ## Rounding -/

theorem F64.nearestEven_mul (m : Nat) {d : Nat} (hd : 0 < d) : F64.nearestEven (m * d) d = m := by
  simp [F64.nearestEven, Nat.mul_div_cancel _ hd, hd]

theorem F64.le_nearestEven (n d : Nat) : n / d ≤ F64.nearestEven n d := by
  unfold F64.nearestEven
  dsimp only
  split_ifs <;> omega

theorem F64.nearestEven_le (n d : Nat) : F64.nearestEven n d ≤ n / d + 1 := by
  unfold F64.nearestEven
  dsimp only
  split_ifs <;> omega

/-- Rounding up never adds more than half a unit. -/
theorem F64.two_nearestEven_mul_le (n d : Nat) : 2 * (F64.nearestEven n d * d) ≤ 2 * n + d := by
  have e := Nat.div_add_mod n d
  have c : n / d * d = d * (n / d) := Nat.mul_comm _ _
  have c' : (n / d + 1) * d = d * (n / d) + d := by ring
  unfold F64.nearestEven
  dsimp only
  split_ifs <;> omega

/-- Rounding to the nearest integer is monotone. -/
theorem F64.nearestEven_mono {n d n' d' : Nat} (hd : 0 < d) (hd' : 0 < d') (h : n * d' ≤ n' * d) :
    F64.nearestEven n d ≤ F64.nearestEven n' d' := by
  have e := Nat.div_add_mod n d
  have e' := Nat.div_add_mod n' d'
  have r := Nat.mod_lt n hd
  have r' := Nat.mod_lt n' hd'
  have hq : n / d ≤ n' / d' := by
    rw [Nat.le_div_iff_mul_le hd']
    refine Nat.le_of_mul_le_mul_right (le_trans ?_ h) hd
    calc n / d * d' * d = n / d * d * d' := by ring
      _ ≤ n * d' := Nat.mul_le_mul_right _ (Nat.div_mul_le_self n d)
  rcases Nat.lt_or_ge (n / d) (n' / d') with hlt | hge
  · exact le_trans (F64.nearestEven_le n d) (le_trans hlt (F64.le_nearestEven n' d'))
  · have hqq : n' / d' = n / d := by omega
    have hr : n % d * d' ≤ n' % d' * d := by
      rw [hqq] at e'
      nlinarith
    unfold F64.nearestEven
    dsimp only
    rw [hqq]
    split_ifs <;> first | omega | nlinarith

/-- The significand that rounding finds has at most 53 bits, and all 53 at a scale above 0. -/
theorem F64.significand_bounds (num den : Nat) :
    F64.nearestEven num (den * 2 ^ F64.scaleOf num den) ≤ 2 ^ 53 ∧
      (F64.scaleOf num den = 0 ∨ 2 ^ 52 ≤ F64.nearestEven num (den * 2 ^ F64.scaleOf num den)) := by
  have hq : num / (den * 2 ^ F64.scaleOf num den) = num / den / 2 ^ F64.scaleOf num den := (Nat.div_div_eq_div_mul _ _ _).symm
  have hle := F64.nearestEven_le num (den * 2 ^ F64.scaleOf num den)
  have hge := F64.le_nearestEven num (den * 2 ^ F64.scaleOf num den)
  rw [hq] at hle hge
  have hlt : num / den < 2 ^ (Nat.log2 (num / den) + 1) := Nat.lt_log2_self
  constructor
  · have : num / den / 2 ^ F64.scaleOf num den < 2 ^ 53 := by
      rw [Nat.div_lt_iff_lt_mul (by positivity), ← pow_add]
      exact lt_of_lt_of_le hlt (Nat.pow_le_pow_right (by norm_num) (by unfold F64.scaleOf; omega))
    omega
  · rcases Nat.eq_zero_or_pos (F64.scaleOf num den) with h0 | h0
    · exact .inl h0
    · right
      refine le_trans ?_ hge
      rw [Nat.le_div_iff_mul_le (by positivity), ← pow_add]
      have hne : num / den ≠ 0 := by
        intro hz
        rw [F64.scaleOf, hz] at h0
        simp at h0
      exact le_trans (Nat.pow_le_pow_right (by norm_num) (by unfold F64.scaleOf at *; omega)) (Nat.log2_self_le hne)

/-- The rounded encoding before the clip to infinity. -/
def F64.roundUnbounded (num den : Nat) : Nat :=
  F64.scaleOf num den * 2 ^ 52 + F64.nearestEven num (den * 2 ^ F64.scaleOf num den)

theorem F64.roundMag_eq (num den : Nat) : F64.roundMag num den = min (F64.roundUnbounded num den) F64.infMag := rfl

/-- The value that rounding gives: the significand at its scale. -/
theorem F64.magOf_roundUnbounded (num den : Nat) :
    F64.magOf (F64.roundUnbounded num den) =
      F64.nearestEven num (den * 2 ^ F64.scaleOf num den) * 2 ^ F64.scaleOf num den :=
  F64.magOf_scaled (F64.significand_bounds num den).1 (F64.significand_bounds num den).2

theorem F64.scaleOf_mono {num den num' den' : Nat} (hden' : 0 < den') (h : num * den' ≤ num' * den) : F64.scaleOf num den ≤ F64.scaleOf num' den' := by
  have hq : num / den ≤ num' / den' := by
    rw [Nat.le_div_iff_mul_le hden']
    rcases Nat.eq_zero_or_pos den with hd | hd
    · simp [hd]
    · have := Nat.div_mul_le_self num den
      have h2 : num / den * den' * den ≤ num' * den := by nlinarith
      exact Nat.le_of_mul_le_mul_right h2 hd
  unfold F64.scaleOf
  rcases Nat.eq_zero_or_pos (num / den) with hz | hz
  · rw [hz]
    simp
  · have : Nat.log2 (num / den) ≤ Nat.log2 (num' / den') := by
      rw [Nat.log2_eq_log_two, Nat.log2_eq_log_two]
      exact Nat.log_mono_right hq
    omega

/-- Rounding is monotone. -/
theorem F64.roundMag_mono {num den num' den' : Nat} (hden : 0 < den) (hden' : 0 < den')
    (h : num * den' ≤ num' * den) : F64.roundMag num den ≤ F64.roundMag num' den' := by
  rw [F64.roundMag_eq, F64.roundMag_eq]
  refine min_le_min_right _ ?_
  have hs := F64.scaleOf_mono hden' h
  unfold F64.roundUnbounded
  rcases Nat.lt_or_ge (F64.scaleOf num den) (F64.scaleOf num' den') with hlt | hge
  · have h1 := (F64.significand_bounds num den).1
    have h2 := (F64.significand_bounds num' den').2
    omega
  · have he : F64.scaleOf num' den' = F64.scaleOf num den := by omega
    rw [he]
    refine Nat.add_le_add_left (F64.nearestEven_mono (by positivity) (by positivity) ?_) _
    calc num * (den' * 2 ^ F64.scaleOf num den) = num * den' * 2 ^ F64.scaleOf num den := by ring
      _ ≤ num' * den * 2 ^ F64.scaleOf num den := Nat.mul_le_mul_right _ h
      _ = num' * (den * 2 ^ F64.scaleOf num den) := by ring

/-- Rounding a representable magnitude gives its own encoding, whatever the denominator it is written over. -/
theorem F64.roundMag_magOf {n : Nat} (hn : n ≤ F64.infMag) {d : Nat} (hd : 0 < d) :
    F64.roundMag (F64.magOf n * d) d = n := by
  have hq : F64.magOf n * d / d = F64.magOf n := Nat.mul_div_cancel _ hd
  have hscale : F64.scaleOf (F64.magOf n * d) d = n / 2 ^ 52 - 1 := by
    rw [F64.scaleOf, hq]
    unfold F64.magOf
    have hr : n % 2 ^ 52 < 2 ^ 52 := Nat.mod_lt _ (by norm_num)
    split
    · next h0 =>
      rcases Nat.eq_zero_or_pos (n % 2 ^ 52) with hz | hz
      · rw [hz, h0]; simp
      · have : Nat.log2 (n % 2 ^ 52) < 52 := (Nat.log2_lt (by omega)).2 hr
        omega
    · next h0 =>
      have hlog : Nat.log2 ((2 ^ 52 + n % 2 ^ 52) * 2 ^ (n / 2 ^ 52 - 1)) = 52 + (n / 2 ^ 52 - 1) := by
        rw [Nat.log2_eq_iff (by positivity)]
        constructor
        · rw [pow_add]
          exact Nat.mul_le_mul_right _ (by omega)
        · rw [show 52 + (n / 2 ^ 52 - 1) + 1 = 53 + (n / 2 ^ 52 - 1) by omega, pow_add]
          exact Nat.mul_lt_mul_of_pos_right (by omega) (by positivity)
      omega
  rw [F64.roundMag_eq, F64.roundUnbounded, hscale]
  have hsig : F64.nearestEven (F64.magOf n * d) (d * 2 ^ (n / 2 ^ 52 - 1)) =
      if n / 2 ^ 52 = 0 then n % 2 ^ 52 else 2 ^ 52 + n % 2 ^ 52 := by
    have hpos : 0 < d * 2 ^ (n / 2 ^ 52 - 1) := by positivity
    have key : F64.magOf n * d =
        (if n / 2 ^ 52 = 0 then n % 2 ^ 52 else 2 ^ 52 + n % 2 ^ 52) * (d * 2 ^ (n / 2 ^ 52 - 1)) := by
      unfold F64.magOf
      split
      · next h0 => rw [h0]; ring
      · ring
    rw [key, F64.nearestEven_mul _ hpos]
  have hn' : (n / 2 ^ 52 - 1) * 2 ^ 52 + (if n / 2 ^ 52 = 0 then n % 2 ^ 52 else 2 ^ 52 + n % 2 ^ 52) = n := by
    clear hsig hscale hq hn
    split <;> omega
  rw [hsig, hn', min_eq_left hn]

/-- Rounding the magnitude of a finite number gives the number's encoding. -/
theorem F64.roundMag_mag {x : F64} (hx : x.isFinite = true) : F64.roundMag x.mag 1 = x.low := by
  have := F64.roundMag_magOf (n := x.low) (le_of_lt ((F64.isFinite_iff x).1 hx)) (d := 1) one_pos
  rwa [mul_one, ← F64.mag_eq] at this

end Sys2Proof
end

