-- ==== Sys2Proof/Laws/Memory.lean ====
section
/-! SUPPORT. The memory: the canonical form, reading after writing, the bytes of words and samples. -/

namespace Sys2Proof.Machine

/-! ## Parts of the memory -/

theorem mem_below {m : Memory} {a : Nat} {c : Host.Cell} (h : c ∈ Memory.below m a) : c ∈ m ∧ c.1 < a := by
  refine ⟨(List.takeWhile_sublist _).subset h, ?_⟩
  simpa using List.mem_takeWhile_imp h

theorem mem_seek {m : Memory} {a : Nat} {c : Host.Cell} (h : c ∈ Memory.seek m a) : c ∈ m :=
  (List.dropWhile_sublist _).subset h

/-- In a canonical memory everything from `a` on has an offset of at least `a`. -/
theorem le_of_mem_seek {m : Memory} (hm : Memory.wf m) {a : Nat} {c : Host.Cell} (h : c ∈ Memory.seek m a) :
    a ≤ c.1 := by
  induction m with
  | nil => simp [Memory.seek] at h
  | cons d m ih =>
    obtain ⟨hd, hm⟩ := List.pairwise_cons.1 hm
    by_cases hda : d.1 < a
    · exact ih hm (by simpa [Memory.seek, hda] using h)
    · have h : c = d ∨ c ∈ m := by simpa [Memory.seek, hda] using h
      rcases h with rfl | h
      · omega
      · have := hd c h; omega

/-- Seeking twice forward is seeking to the later offset. -/
theorem seek_seek (m : Memory) {a b : Nat} (h : a ≤ b) : Memory.seek (Memory.seek m a) b = Memory.seek m b := by
  induction m with
  | nil => rfl
  | cons c m ih =>
    by_cases hc : c.1 < a
    · have hcb : c.1 < b := by omega
      simpa [Memory.seek, hc, hcb] using ih
    · simp [Memory.seek, hc]

theorem read_seek (m : Memory) {a b : Nat} (h : a ≤ b) : Memory.read (Memory.seek m a) b = Memory.read m b := by
  rw [Memory.read, Memory.read, seek_seek m h]

theorem seek_append_below {l m : Memory} {a : Nat} (h : ∀ c ∈ l, c.1 < a) :
    Memory.seek (l ++ m) a = Memory.seek m a := by
  induction l with
  | nil => rfl
  | cons c l ih =>
    have hc : c.1 < a := h c (by simp)
    simpa [Memory.seek, hc] using ih (fun d hd => h d (by simp [hd]))

/-! ## Cells of a block of bytes -/

theorem mem_cellsFrom {a : Nat} {bs : List Byte} {c : Host.Cell} (h : c ∈ cellsFrom a bs) :
    a ≤ c.1 ∧ c.1 < a + bs.length := by
  induction bs generalizing a with
  | nil => simp [cellsFrom] at h
  | cons b bs ih =>
    simp only [cellsFrom, List.mem_cons] at h
    rcases h with rfl | h
    · simp
    · have := ih h
      simp only [List.length_cons]
      omega

theorem cellsFrom_wf (a : Nat) (bs : List Byte) : Memory.wf (cellsFrom a bs) := by
  induction bs generalizing a with
  | nil => exact List.Pairwise.nil
  | cons b bs ih => exact List.Pairwise.cons (fun c hc => by have := (mem_cellsFrom hc).1; simp only; omega) (ih _)

theorem read_cellsFrom (m : Memory) (a : Nat) (bs : List Byte) (j : Nat) (h : j < bs.length) :
    Memory.read (cellsFrom a bs ++ m) (a + j) = bs[j]? := by
  induction bs generalizing a j with
  | nil => simp at h
  | cons b bs ih =>
    cases j with
    | zero => simp [cellsFrom, Memory.read, Memory.seek]
    | succ j =>
      have := ih (a + 1) j (by simpa using h)
      have hlt : a < a + (j + 1) := by omega
      simpa [cellsFrom, Memory.read, Memory.seek, hlt, Nat.add_assoc, Nat.add_comm 1 j] using this

/-! ## Write, then read -/

/-- Every memory write keeps the canonical form. -/
theorem write_wf {m : Memory} (hm : Memory.wf m) (a : Nat) (bs : List Byte) : Memory.wf (Memory.write m a bs) := by
  have hseek : ∀ d ∈ Memory.seek m (a + bs.length), a + bs.length ≤ d.1 := fun d hd => le_of_mem_seek hm hd
  refine List.pairwise_append.2 ⟨List.pairwise_append.2 ⟨hm.sublist (List.takeWhile_sublist _), cellsFrom_wf a bs, ?_⟩,
    hm.sublist (List.dropWhile_sublist _), ?_⟩
  · intro c hc d hd
    have := (mem_below hc).2
    have := (mem_cellsFrom hd).1
    omega
  · intro c hc d hd
    have := hseek d hd
    rcases List.mem_append.1 hc with hc | hc
    · have := (mem_below hc).2
      omega
    · have := (mem_cellsFrom hc).2
      omega

/-- A cell of the memory after a write stood there before or is one of the written ones. -/
theorem mem_write {m : Memory} {a : Nat} {bs : List Byte} {c : Host.Cell} (h : c ∈ Memory.write m a bs) :
    c ∈ m ∨ (a ≤ c.1 ∧ c.1 < a + bs.length) := by
  rcases List.mem_append.1 h with h | h
  · rcases List.mem_append.1 h with h | h
    · exact .inl (mem_below h).1
    · exact .inr (mem_cellsFrom h)
  · exact .inl (mem_seek h)

/-- A written byte reads back. -/
theorem read_write_of_mem (m : Memory) (a : Nat) (bs : List Byte) (j : Nat) (h : j < bs.length) :
    Memory.read (Memory.write m a bs) (a + j) = bs[j]? := by
  have := seek_append_below (l := Memory.below m a) (m := cellsFrom a bs ++ Memory.seek m (a + bs.length)) (a := a + j)
    (fun c hc => by have := (mem_below hc).2; omega)
  rw [Memory.read, Memory.write, List.append_assoc, this]
  exact read_cellsFrom _ a bs j h

theorem below_append_seek (m : Memory) (a : Nat) : Memory.below m a ++ Memory.seek m a = m :=
  List.takeWhile_append_dropWhile

/-- The first cell from `a` on, if there is one, has an offset of at least `a`. -/
theorem le_of_seek_eq_cons {m l : Memory} {a : Nat} {c : Host.Cell} (h : Memory.seek m a = c :: l) : a ≤ c.1 := by
  induction m with
  | nil => simp [Memory.seek] at h
  | cons d m ih =>
    by_cases hd : d.1 < a
    · exact ih (by simpa [Memory.seek, hd] using h)
    · have h : d = c ∧ m = l := by simpa [Memory.seek, hd] using h
      rw [← h.1]
      omega

/-- What the memory reads at an offset below those of `m`. -/
theorem read_append_of_lt (l m : Memory) {a : Nat} (h : ∀ c l', m = c :: l' → a < c.1) :
    Memory.read (l ++ m) a = Memory.read l a := by
  induction l with
  | nil =>
    cases m with
    | nil => rfl
    | cons c m =>
      have hc := h c m rfl
      have h1 : ¬c.1 < a := by omega
      have h2 : c.1 ≠ a := by omega
      simp [Memory.read, Memory.seek, h1, h2]
  | cons d l ih =>
    by_cases hd : d.1 < a
    · simpa [Memory.read, Memory.seek, hd] using ih
    · simp [Memory.read, Memory.seek, hd]

/-- A byte outside the written ones reads as before. -/
theorem read_write_of_notMem (m : Memory) (a : Nat) (bs : List Byte) {x : Nat} (h : x < a ∨ a + bs.length ≤ x) :
    Memory.read (Memory.write m a bs) x = Memory.read m x := by
  rcases h with h | h
  · have hseek : ∀ (b : Nat), a ≤ b → ∀ c l', Memory.seek m b = c :: l' → x < c.1 := fun b hb c l' e => by
      have := le_of_seek_eq_cons e
      omega
    have key : Memory.read (Memory.below m a) x = Memory.read m x := by
      have := read_append_of_lt (Memory.below m a) (Memory.seek m a) (hseek a le_rfl)
      rwa [below_append_seek, eq_comm] at this
    rw [← key, Memory.write, List.append_assoc]
    refine read_append_of_lt _ _ ?_
    intro c l' e
    cases bs with
    | nil => exact hseek a le_rfl c l' e
    | cons b bs =>
      simp only [cellsFrom, List.cons_append, List.cons.injEq] at e
      rw [← e.1]
      exact h
  · have : Memory.seek (Memory.write m a bs) x = Memory.seek m x := by
      rw [Memory.write, seek_append_below, seek_seek m h]
      intro c hc
      rcases List.mem_append.1 hc with hc | hc
      · have := (mem_below hc).2
        omega
      · have := (mem_cellsFrom hc).2
        omega
    rw [Memory.read, Memory.read, this]

/-- What the memory reads after a write, in one equation. -/
theorem read_write (m : Memory) (a : Nat) (bs : List Byte) (x : Nat) :
    Memory.read (Memory.write m a bs) x = if a ≤ x ∧ x < a + bs.length then bs[x - a]? else Memory.read m x := by
  split
  · next h =>
    have := read_write_of_mem m a bs (x - a) (by omega)
    rwa [show a + (x - a) = x by omega] at this
  · next h => exact read_write_of_notMem m a bs (by omega)

/-! ## The bytes of words and samples -/

@[simp] theorem length_wordBytes (w : Word) : (wordBytes w).length = 4 := by simp [wordBytes]

@[simp] theorem length_sampleBytes (x : F64) : (sampleBytes x).length = 8 := by simp [sampleBytes]

theorem length_flatMap_sampleBytes (out : List F64) : (out.flatMap sampleBytes).length = 8 * out.length := by
  induction out with
  | nil => rfl
  | cons x out ih => simp only [List.flatMap_cons, List.length_append, length_sampleBytes, ih, List.length_cons]; omega

theorem getElem?_flatMap_sampleBytes (out : List F64) (j i : Nat) (hi : i < 8) :
    (out.flatMap sampleBytes)[8 * j + i]? = out[j]?.map fun x => x.extractLsb' (8 * i) 8 := by
  induction out generalizing j with
  | nil => simp
  | cons x out ih =>
    cases j with
    | zero =>
      rw [List.flatMap_cons, List.getElem?_append_left (by simp; omega)]
      simp [sampleBytes, hi]
    | succ j =>
      rw [List.flatMap_cons, List.getElem?_append_right (by simp; omega), length_sampleBytes,
        show 8 * (j + 1) + i - 8 = 8 * j + i by omega, ih j]
      simp

theorem sampleOfBytes_bytes (x : F64) : sampleOfBytes (fun i => x.extractLsb' (8 * i) 8) = x := by
  apply BitVec.eq_of_getLsbD_eq
  intro i hi
  simp only [sampleOfBytes, BitVec.getLsbD_append, BitVec.getLsbD_extractLsb']
  repeat' split
  all_goals
    rw [decide_eq_true (by omega), Bool.true_and]
    congr 1
    omega

theorem wordOfBytes_bytes (w : Word) : wordOfBytes (fun i => w.extractLsb' (8 * i) 8) = w := by
  apply BitVec.eq_of_getLsbD_eq
  intro i hi
  simp only [wordOfBytes, BitVec.getLsbD_append, BitVec.getLsbD_extractLsb']
  repeat' split
  all_goals
    rw [decide_eq_true (by omega), Bool.true_and]
    congr 1
    omega

end Sys2Proof.Machine
end

