-- ==== Sys2Proof/Laws/Buffers.lean ====
section
/-! SUPPORT. BITBUF and OUTBUF: what the buffer operations read and leave. -/

namespace Sys2Proof.Machine

/-! ## OUTBUF -/

theorem outSample_seek (m : Memory) {a b : Nat} (h : a ≤ b) : outSample (Memory.seek m a) b = outSample m b := by
  unfold outSample
  congr 1
  funext i
  rw [read_seek m (by omega)]

/-- `storedOutput` and EMIT read OUTBUF sample by sample. -/
theorem outSamplesFrom_eq (m : Memory) (a n : Nat) :
    outSamplesFrom m a n = (List.range n).map fun j => outSample m (a + 8 * j) := by
  induction n generalizing m a with
  | zero => rfl
  | succ n ih =>
    rw [outSamplesFrom, ih, List.range_succ_eq_map, List.map_cons, List.map_map, outSample_seek m le_rfl]
    congr 1
    refine List.map_congr_left fun j _ => ?_
    rw [outSample_seek m (by omega), Function.comp_apply]
    congr 1
    simp only [Nat.succ_eq_add_one]
    omega

@[simp] theorem length_outSamplesFrom (m : Memory) (a n : Nat) : (outSamplesFrom m a n).length = n := by
  simp [outSamplesFrom_eq]

theorem outWrite_wf {m : Memory} (hm : Memory.wf m) (out : List F64) : Memory.wf (outWrite m out) := write_wf hm _ _

/-- A byte of a sample that `outWrite` stores. -/
theorem read_outWrite_of_mem (m : Memory) (out : List F64) (j i : Nat) (hj : j < out.length) (hi : i < 8) :
    Memory.read (outWrite m out) (outbufBase + 8 * j + i) = out[j]?.map fun x => x.extractLsb' (8 * i) 8 := by
  rw [outWrite, Nat.add_assoc, read_write_of_mem _ _ _ _ (by rw [length_flatMap_sampleBytes]; omega)]
  exact getElem?_flatMap_sampleBytes out j i hi

/-- A byte outside the stored samples reads as before. -/
theorem read_outWrite_of_notMem (m : Memory) (out : List F64) {x : Nat}
    (h : x < outbufBase ∨ outbufBase + 8 * out.length ≤ x) : Memory.read (outWrite m out) x = Memory.read m x :=
  read_write_of_notMem _ _ _ (by rw [length_flatMap_sampleBytes]; exact h)

theorem sampleOfBytes_congr {f g : Nat → Byte} (h : ∀ i, i < 8 → f i = g i) : sampleOfBytes f = sampleOfBytes g := by
  simp only [sampleOfBytes, h 0 (by omega), h 1 (by omega), h 2 (by omega), h 3 (by omega), h 4 (by omega),
    h 5 (by omega), h 6 (by omega), h 7 (by omega)]

theorem wordOfBytes_congr {f g : Nat → Byte} (h : ∀ i, i < 4 → f i = g i) : wordOfBytes f = wordOfBytes g := by
  simp only [wordOfBytes, h 0 (by omega), h 1 (by omega), h 2 (by omega), h 3 (by omega)]

/-- A stored sample reads back. -/
theorem outSample_outWrite (m : Memory) (out : List F64) (j : Nat) (hj : j < out.length) :
    outSample (outWrite m out) (outbufBase + 8 * j) = out[j] := by
  rw [← sampleOfBytes_bytes out[j], outSample]
  refine sampleOfBytes_congr fun i hi => ?_
  rw [read_outWrite_of_mem m out j i hj hi, List.getElem?_eq_getElem hj]
  rfl

/-- The stored output is the output. -/
theorem outSamplesFrom_outWrite (m : Memory) (out : List F64) :
    outSamplesFrom (outWrite m out) outbufBase out.length = out := by
  rw [outSamplesFrom_eq]
  refine List.ext_getElem (by simp) fun j h1 h2 => ?_
  rw [List.getElem_map, List.getElem_range]
  exact outSample_outWrite m out j h2

/-! ## BITBUF -/

/-- A BITBUF bit after the write of a word at a word's offset. -/
theorem bitRead_write_word (m : Memory) (w : Nat) (v : Word) (i : Nat) :
    bitRead (Memory.write m (bitbufBase + 4 * w) (wordBytes v)) i =
      if i / 32 = w then some (v.getLsbD (i % 32)) else bitRead m i := by
  unfold bitRead
  rw [read_write, length_wordBytes]
  by_cases h : i / 32 = w
  · rw [if_pos (by omega), if_pos h]
    have hk : bitbufBase + i / 8 - (bitbufBase + 4 * w) < 4 := by omega
    simp only [wordBytes, List.getElem?_map, List.getElem?_range hk, Option.map_some, Option.some.injEq,
      BitVec.getLsbD_extractLsb']
    rw [decide_eq_true (by omega), Bool.true_and]
    congr 1
    omega
  · rw [if_neg (by omega), if_neg h]

/-- `outWrite` leaves the bits of BITBUF alone (they lie below OUTBUF). -/
theorem bitRead_outWrite (m : Memory) (out : List F64) (i : Nat) (h : i < 491520) :
    bitRead (outWrite m out) i = bitRead m i := by
  unfold bitRead
  rw [read_outWrite_of_notMem]
  left
  unfold bitbufBase outbufBase
  omega

/-- `readBits` answers exactly the written bits. -/
theorem readBits_eq_some {m : Memory} {i n : Nat} {bits : List Bool} :
    readBits m i n = some bits ↔ bits.length = n ∧ ∀ j, j < n → bitRead m (i + j) = bits[j]? := by
  induction n generalizing i bits with
  | zero =>
    constructor
    · intro h
      cases h
      exact ⟨rfl, fun j hj => absurd hj (by omega)⟩
    · rintro ⟨h, -⟩
      rw [List.length_eq_zero_iff.1 h]
      rfl
  | succ n ih =>
    constructor
    · intro h
      rw [readBits] at h
      split at h
      · next b bs hb hbs =>
        cases h
        obtain ⟨hl, hr⟩ := ih.1 hbs
        refine ⟨by simp [hl], fun j hj => ?_⟩
        cases j with
        | zero => simpa using hb
        | succ j =>
          have := hr j (by omega)
          rw [List.getElem?_cons_succ, ← this]
          congr 1
          omega
      · cases h
    · rintro ⟨hl, hr⟩
      cases bits with
      | nil => simp at hl
      | cons b bs =>
        have hb : bitRead m i = some b := by simpa using hr 0 (by omega)
        have hbs : readBits m (i + 1) n = some bs := ih.2 ⟨by simpa using hl, fun j hj => by
          have := hr (j + 1) (by omega)
          rw [List.getElem?_cons_succ] at this
          rw [← this]
          congr 1
          omega⟩
        rw [readBits, hb, hbs]

/-- `readBits` answers none exactly if one of the bits is unwritten. -/
theorem readBits_eq_none {m : Memory} {i n : Nat} :
    readBits m i n = none ↔ ∃ j, j < n ∧ bitRead m (i + j) = none := by
  induction n generalizing i with
  | zero => simp [readBits]
  | succ n ih =>
    rw [readBits]
    constructor
    · intro h
      cases hb : bitRead m i with
      | none => exact ⟨0, by omega, by simpa using hb⟩
      | some b =>
        cases hbs : readBits m (i + 1) n with
        | none =>
          obtain ⟨j, hj, hn⟩ := ih.1 hbs
          exact ⟨j + 1, by omega, by rw [← hn]; congr 1; omega⟩
        | some bs => rw [hb, hbs] at h; cases h
    · rintro ⟨j, hj, hn⟩
      cases j with
      | zero => rw [show bitRead m i = none by simpa using hn]
      | succ j =>
        have : readBits m (i + 1) n = none := ih.2 ⟨j, by omega, by rw [← hn]; congr 1; omega⟩
        rw [this]
        cases bitRead m i <;> rfl

end Sys2Proof.Machine
end

