-- ==== Sys2Proof/Laws/State.lean ====
section
/-! SUPPORT. One lemma per field of State per named update, so that no proof unfolds a record update. -/

namespace Sys2Proof.Machine

variable (s : State)

/-! ## setLastOpc -/

@[simp] theorem setLastOpc_params (o : Byte) : (setLastOpc s o).params = s.params := rfl
@[simp] theorem setLastOpc_cfgValid (o : Byte) : (setLastOpc s o).cfgValid = s.cfgValid := rfl
@[simp] theorem setLastOpc_outValid (o : Byte) : (setLastOpc s o).outValid = s.outValid := rfl
@[simp] theorem setLastOpc_errcode (o : Byte) : (setLastOpc s o).errcode = s.errcode := rfl
@[simp] theorem setLastOpc_lastOpc (o : Byte) : (setLastOpc s o).lastOpc = o := rfl
@[simp] theorem setLastOpc_sScheme (o : Byte) : (setLastOpc s o).sScheme = s.sScheme := rfl
@[simp] theorem setLastOpc_sSpb (o : Byte) : (setLastOpc s o).sSpb = s.sSpb := rfl
@[simp] theorem setLastOpc_sAminLo (o : Byte) : (setLastOpc s o).sAminLo = s.sAminLo := rfl
@[simp] theorem setLastOpc_sAminHi (o : Byte) : (setLastOpc s o).sAminHi = s.sAminHi := rfl
@[simp] theorem setLastOpc_sAmaxLo (o : Byte) : (setLastOpc s o).sAmaxLo = s.sAmaxLo := rfl
@[simp] theorem setLastOpc_sAmaxHi (o : Byte) : (setLastOpc s o).sAmaxHi = s.sAmaxHi := rfl
@[simp] theorem setLastOpc_aScheme (o : Byte) : (setLastOpc s o).aScheme = s.aScheme := rfl
@[simp] theorem setLastOpc_aSpb (o : Byte) : (setLastOpc s o).aSpb = s.aSpb := rfl
@[simp] theorem setLastOpc_aAminLo (o : Byte) : (setLastOpc s o).aAminLo = s.aAminLo := rfl
@[simp] theorem setLastOpc_aAminHi (o : Byte) : (setLastOpc s o).aAminHi = s.aAminHi := rfl
@[simp] theorem setLastOpc_aAmaxLo (o : Byte) : (setLastOpc s o).aAmaxLo = s.aAmaxLo := rfl
@[simp] theorem setLastOpc_aAmaxHi (o : Byte) : (setLastOpc s o).aAmaxHi = s.aAmaxHi := rfl
@[simp] theorem setLastOpc_bitlen (o : Byte) : (setLastOpc s o).bitlen = s.bitlen := rfl
@[simp] theorem setLastOpc_consumers (o : Byte) : (setLastOpc s o).consumers = s.consumers := rfl
@[simp] theorem setLastOpc_outlen (o : Byte) : (setLastOpc s o).outlen = s.outlen := rfl
@[simp] theorem setLastOpc_mem (o : Byte) : (setLastOpc s o).mem = s.mem := rfl
@[simp] theorem setLastOpc_trace (o : Byte) : (setLastOpc s o).trace = s.trace := rfl
@[simp] theorem setLastOpc_faultMark (o : Byte) : (setLastOpc s o).faultMark = s.faultMark := rfl
@[simp] theorem setLastOpc_pending (o : Byte) : (setLastOpc s o).pending = s.pending := rfl
@[simp] theorem setLastOpc_reads (o : Byte) : (setLastOpc s o).reads = s.reads := rfl
@[simp] theorem setLastOpc_draws (o : Byte) : (setLastOpc s o).draws = s.draws := rfl

/-! ## succeed -/

@[simp] theorem succeed_params : (succeed s).params = s.params := rfl
@[simp] theorem succeed_cfgValid : (succeed s).cfgValid = s.cfgValid := rfl
@[simp] theorem succeed_outValid : (succeed s).outValid = s.outValid := rfl
@[simp] theorem succeed_errcode : (succeed s).errcode = 0 := rfl
@[simp] theorem succeed_lastOpc : (succeed s).lastOpc = s.lastOpc := rfl
@[simp] theorem succeed_sScheme : (succeed s).sScheme = s.sScheme := rfl
@[simp] theorem succeed_sSpb : (succeed s).sSpb = s.sSpb := rfl
@[simp] theorem succeed_sAminLo : (succeed s).sAminLo = s.sAminLo := rfl
@[simp] theorem succeed_sAminHi : (succeed s).sAminHi = s.sAminHi := rfl
@[simp] theorem succeed_sAmaxLo : (succeed s).sAmaxLo = s.sAmaxLo := rfl
@[simp] theorem succeed_sAmaxHi : (succeed s).sAmaxHi = s.sAmaxHi := rfl
@[simp] theorem succeed_aScheme : (succeed s).aScheme = s.aScheme := rfl
@[simp] theorem succeed_aSpb : (succeed s).aSpb = s.aSpb := rfl
@[simp] theorem succeed_aAminLo : (succeed s).aAminLo = s.aAminLo := rfl
@[simp] theorem succeed_aAminHi : (succeed s).aAminHi = s.aAminHi := rfl
@[simp] theorem succeed_aAmaxLo : (succeed s).aAmaxLo = s.aAmaxLo := rfl
@[simp] theorem succeed_aAmaxHi : (succeed s).aAmaxHi = s.aAmaxHi := rfl
@[simp] theorem succeed_bitlen : (succeed s).bitlen = s.bitlen := rfl
@[simp] theorem succeed_consumers : (succeed s).consumers = s.consumers := rfl
@[simp] theorem succeed_outlen : (succeed s).outlen = s.outlen := rfl
@[simp] theorem succeed_mem : (succeed s).mem = s.mem := rfl
@[simp] theorem succeed_trace : (succeed s).trace = s.trace := rfl
@[simp] theorem succeed_faultMark : (succeed s).faultMark = s.faultMark := rfl
@[simp] theorem succeed_pending : (succeed s).pending = s.pending := rfl
@[simp] theorem succeed_reads : (succeed s).reads = s.reads := rfl
@[simp] theorem succeed_draws : (succeed s).draws = s.draws := rfl

/-! ## raise -/

@[simp] theorem raise_params (e : ErrorKind) : (raise s e).params = s.params := rfl
@[simp] theorem raise_cfgValid (e : ErrorKind) : (raise s e).cfgValid = s.cfgValid := rfl
@[simp] theorem raise_outValid (e : ErrorKind) : (raise s e).outValid = s.outValid := rfl
@[simp] theorem raise_errcode (e : ErrorKind) : (raise s e).errcode = errorCode e := rfl
@[simp] theorem raise_lastOpc (e : ErrorKind) : (raise s e).lastOpc = s.lastOpc := rfl
@[simp] theorem raise_sScheme (e : ErrorKind) : (raise s e).sScheme = s.sScheme := rfl
@[simp] theorem raise_sSpb (e : ErrorKind) : (raise s e).sSpb = s.sSpb := rfl
@[simp] theorem raise_sAminLo (e : ErrorKind) : (raise s e).sAminLo = s.sAminLo := rfl
@[simp] theorem raise_sAminHi (e : ErrorKind) : (raise s e).sAminHi = s.sAminHi := rfl
@[simp] theorem raise_sAmaxLo (e : ErrorKind) : (raise s e).sAmaxLo = s.sAmaxLo := rfl
@[simp] theorem raise_sAmaxHi (e : ErrorKind) : (raise s e).sAmaxHi = s.sAmaxHi := rfl
@[simp] theorem raise_aScheme (e : ErrorKind) : (raise s e).aScheme = s.aScheme := rfl
@[simp] theorem raise_aSpb (e : ErrorKind) : (raise s e).aSpb = s.aSpb := rfl
@[simp] theorem raise_aAminLo (e : ErrorKind) : (raise s e).aAminLo = s.aAminLo := rfl
@[simp] theorem raise_aAminHi (e : ErrorKind) : (raise s e).aAminHi = s.aAminHi := rfl
@[simp] theorem raise_aAmaxLo (e : ErrorKind) : (raise s e).aAmaxLo = s.aAmaxLo := rfl
@[simp] theorem raise_aAmaxHi (e : ErrorKind) : (raise s e).aAmaxHi = s.aAmaxHi := rfl
@[simp] theorem raise_bitlen (e : ErrorKind) : (raise s e).bitlen = s.bitlen := rfl
@[simp] theorem raise_consumers (e : ErrorKind) : (raise s e).consumers = s.consumers := rfl
@[simp] theorem raise_outlen (e : ErrorKind) : (raise s e).outlen = s.outlen := rfl
@[simp] theorem raise_mem (e : ErrorKind) : (raise s e).mem = s.mem := rfl
@[simp] theorem raise_trace (e : ErrorKind) : (raise s e).trace = s.trace := rfl
@[simp] theorem raise_faultMark (e : ErrorKind) : (raise s e).faultMark = s.faultMark := rfl
@[simp] theorem raise_pending (e : ErrorKind) : (raise s e).pending = s.pending := rfl
@[simp] theorem raise_reads (e : ErrorKind) : (raise s e).reads = s.reads := rfl
@[simp] theorem raise_draws (e : ErrorKind) : (raise s e).draws = s.draws := rfl

/-! ## commitConfig -/

@[simp] theorem commitConfig_params : (commitConfig s).params = s.params := rfl
@[simp] theorem commitConfig_cfgValid : (commitConfig s).cfgValid = true := rfl
@[simp] theorem commitConfig_outValid : (commitConfig s).outValid = s.outValid := rfl
@[simp] theorem commitConfig_errcode : (commitConfig s).errcode = s.errcode := rfl
@[simp] theorem commitConfig_lastOpc : (commitConfig s).lastOpc = s.lastOpc := rfl
@[simp] theorem commitConfig_sScheme : (commitConfig s).sScheme = s.sScheme := rfl
@[simp] theorem commitConfig_sSpb : (commitConfig s).sSpb = s.sSpb := rfl
@[simp] theorem commitConfig_sAminLo : (commitConfig s).sAminLo = s.sAminLo := rfl
@[simp] theorem commitConfig_sAminHi : (commitConfig s).sAminHi = s.sAminHi := rfl
@[simp] theorem commitConfig_sAmaxLo : (commitConfig s).sAmaxLo = s.sAmaxLo := rfl
@[simp] theorem commitConfig_sAmaxHi : (commitConfig s).sAmaxHi = s.sAmaxHi := rfl
@[simp] theorem commitConfig_aScheme : (commitConfig s).aScheme = s.sScheme := rfl
@[simp] theorem commitConfig_aSpb : (commitConfig s).aSpb = s.sSpb := rfl
@[simp] theorem commitConfig_aAminLo : (commitConfig s).aAminLo = s.sAminLo := rfl
@[simp] theorem commitConfig_aAminHi : (commitConfig s).aAminHi = s.sAminHi := rfl
@[simp] theorem commitConfig_aAmaxLo : (commitConfig s).aAmaxLo = s.sAmaxLo := rfl
@[simp] theorem commitConfig_aAmaxHi : (commitConfig s).aAmaxHi = s.sAmaxHi := rfl
@[simp] theorem commitConfig_bitlen : (commitConfig s).bitlen = s.bitlen := rfl
@[simp] theorem commitConfig_consumers : (commitConfig s).consumers = s.consumers := rfl
@[simp] theorem commitConfig_outlen : (commitConfig s).outlen = s.outlen := rfl
@[simp] theorem commitConfig_mem : (commitConfig s).mem = s.mem := rfl
@[simp] theorem commitConfig_trace : (commitConfig s).trace = s.trace := rfl
@[simp] theorem commitConfig_faultMark : (commitConfig s).faultMark = s.faultMark := rfl
@[simp] theorem commitConfig_pending : (commitConfig s).pending = s.pending := rfl
@[simp] theorem commitConfig_reads : (commitConfig s).reads = s.reads := rfl
@[simp] theorem commitConfig_draws : (commitConfig s).draws = s.draws := rfl

/-! ## connectSlot -/

@[simp] theorem connectSlot_params (c : Nat) : (connectSlot s c).params = s.params := rfl
@[simp] theorem connectSlot_cfgValid (c : Nat) : (connectSlot s c).cfgValid = s.cfgValid := rfl
@[simp] theorem connectSlot_outValid (c : Nat) : (connectSlot s c).outValid = s.outValid := rfl
@[simp] theorem connectSlot_errcode (c : Nat) : (connectSlot s c).errcode = s.errcode := rfl
@[simp] theorem connectSlot_lastOpc (c : Nat) : (connectSlot s c).lastOpc = s.lastOpc := rfl
@[simp] theorem connectSlot_sScheme (c : Nat) : (connectSlot s c).sScheme = s.sScheme := rfl
@[simp] theorem connectSlot_sSpb (c : Nat) : (connectSlot s c).sSpb = s.sSpb := rfl
@[simp] theorem connectSlot_sAminLo (c : Nat) : (connectSlot s c).sAminLo = s.sAminLo := rfl
@[simp] theorem connectSlot_sAminHi (c : Nat) : (connectSlot s c).sAminHi = s.sAminHi := rfl
@[simp] theorem connectSlot_sAmaxLo (c : Nat) : (connectSlot s c).sAmaxLo = s.sAmaxLo := rfl
@[simp] theorem connectSlot_sAmaxHi (c : Nat) : (connectSlot s c).sAmaxHi = s.sAmaxHi := rfl
@[simp] theorem connectSlot_aScheme (c : Nat) : (connectSlot s c).aScheme = s.aScheme := rfl
@[simp] theorem connectSlot_aSpb (c : Nat) : (connectSlot s c).aSpb = s.aSpb := rfl
@[simp] theorem connectSlot_aAminLo (c : Nat) : (connectSlot s c).aAminLo = s.aAminLo := rfl
@[simp] theorem connectSlot_aAminHi (c : Nat) : (connectSlot s c).aAminHi = s.aAminHi := rfl
@[simp] theorem connectSlot_aAmaxLo (c : Nat) : (connectSlot s c).aAmaxLo = s.aAmaxLo := rfl
@[simp] theorem connectSlot_aAmaxHi (c : Nat) : (connectSlot s c).aAmaxHi = s.aAmaxHi := rfl
@[simp] theorem connectSlot_bitlen (c : Nat) : (connectSlot s c).bitlen = s.bitlen := rfl
@[simp] theorem connectSlot_consumers (c : Nat) : (connectSlot s c).consumers = s.consumers ||| ((1 : Word) <<< c) := rfl
@[simp] theorem connectSlot_outlen (c : Nat) : (connectSlot s c).outlen = s.outlen := rfl
@[simp] theorem connectSlot_mem (c : Nat) : (connectSlot s c).mem = s.mem := rfl
@[simp] theorem connectSlot_trace (c : Nat) : (connectSlot s c).trace = s.trace := rfl
@[simp] theorem connectSlot_faultMark (c : Nat) : (connectSlot s c).faultMark = s.faultMark := rfl
@[simp] theorem connectSlot_pending (c : Nat) : (connectSlot s c).pending = s.pending := rfl
@[simp] theorem connectSlot_reads (c : Nat) : (connectSlot s c).reads = s.reads := rfl
@[simp] theorem connectSlot_draws (c : Nat) : (connectSlot s c).draws = s.draws := rfl

/-! ## disconnectSlot -/

@[simp] theorem disconnectSlot_params (c : Nat) : (disconnectSlot s c).params = s.params := rfl
@[simp] theorem disconnectSlot_cfgValid (c : Nat) : (disconnectSlot s c).cfgValid = s.cfgValid := rfl
@[simp] theorem disconnectSlot_outValid (c : Nat) : (disconnectSlot s c).outValid = s.outValid := rfl
@[simp] theorem disconnectSlot_errcode (c : Nat) : (disconnectSlot s c).errcode = s.errcode := rfl
@[simp] theorem disconnectSlot_lastOpc (c : Nat) : (disconnectSlot s c).lastOpc = s.lastOpc := rfl
@[simp] theorem disconnectSlot_sScheme (c : Nat) : (disconnectSlot s c).sScheme = s.sScheme := rfl
@[simp] theorem disconnectSlot_sSpb (c : Nat) : (disconnectSlot s c).sSpb = s.sSpb := rfl
@[simp] theorem disconnectSlot_sAminLo (c : Nat) : (disconnectSlot s c).sAminLo = s.sAminLo := rfl
@[simp] theorem disconnectSlot_sAminHi (c : Nat) : (disconnectSlot s c).sAminHi = s.sAminHi := rfl
@[simp] theorem disconnectSlot_sAmaxLo (c : Nat) : (disconnectSlot s c).sAmaxLo = s.sAmaxLo := rfl
@[simp] theorem disconnectSlot_sAmaxHi (c : Nat) : (disconnectSlot s c).sAmaxHi = s.sAmaxHi := rfl
@[simp] theorem disconnectSlot_aScheme (c : Nat) : (disconnectSlot s c).aScheme = s.aScheme := rfl
@[simp] theorem disconnectSlot_aSpb (c : Nat) : (disconnectSlot s c).aSpb = s.aSpb := rfl
@[simp] theorem disconnectSlot_aAminLo (c : Nat) : (disconnectSlot s c).aAminLo = s.aAminLo := rfl
@[simp] theorem disconnectSlot_aAminHi (c : Nat) : (disconnectSlot s c).aAminHi = s.aAminHi := rfl
@[simp] theorem disconnectSlot_aAmaxLo (c : Nat) : (disconnectSlot s c).aAmaxLo = s.aAmaxLo := rfl
@[simp] theorem disconnectSlot_aAmaxHi (c : Nat) : (disconnectSlot s c).aAmaxHi = s.aAmaxHi := rfl
@[simp] theorem disconnectSlot_bitlen (c : Nat) : (disconnectSlot s c).bitlen = s.bitlen := rfl
@[simp] theorem disconnectSlot_consumers (c : Nat) : (disconnectSlot s c).consumers = s.consumers &&& ~~~((1 : Word) <<< c) := rfl
@[simp] theorem disconnectSlot_outlen (c : Nat) : (disconnectSlot s c).outlen = s.outlen := rfl
@[simp] theorem disconnectSlot_mem (c : Nat) : (disconnectSlot s c).mem = s.mem := rfl
@[simp] theorem disconnectSlot_trace (c : Nat) : (disconnectSlot s c).trace = s.trace := rfl
@[simp] theorem disconnectSlot_faultMark (c : Nat) : (disconnectSlot s c).faultMark = s.faultMark := rfl
@[simp] theorem disconnectSlot_pending (c : Nat) : (disconnectSlot s c).pending = s.pending := rfl
@[simp] theorem disconnectSlot_reads (c : Nat) : (disconnectSlot s c).reads = s.reads := rfl
@[simp] theorem disconnectSlot_draws (c : Nat) : (disconnectSlot s c).draws = s.draws := rfl

/-! ## deliver -/

@[simp] theorem deliver_params (x : List F64) : (deliver s x).params = s.params := rfl
@[simp] theorem deliver_cfgValid (x : List F64) : (deliver s x).cfgValid = s.cfgValid := rfl
@[simp] theorem deliver_outValid (x : List F64) : (deliver s x).outValid = s.outValid := rfl
@[simp] theorem deliver_errcode (x : List F64) : (deliver s x).errcode = s.errcode := rfl
@[simp] theorem deliver_lastOpc (x : List F64) : (deliver s x).lastOpc = s.lastOpc := rfl
@[simp] theorem deliver_sScheme (x : List F64) : (deliver s x).sScheme = s.sScheme := rfl
@[simp] theorem deliver_sSpb (x : List F64) : (deliver s x).sSpb = s.sSpb := rfl
@[simp] theorem deliver_sAminLo (x : List F64) : (deliver s x).sAminLo = s.sAminLo := rfl
@[simp] theorem deliver_sAminHi (x : List F64) : (deliver s x).sAminHi = s.sAminHi := rfl
@[simp] theorem deliver_sAmaxLo (x : List F64) : (deliver s x).sAmaxLo = s.sAmaxLo := rfl
@[simp] theorem deliver_sAmaxHi (x : List F64) : (deliver s x).sAmaxHi = s.sAmaxHi := rfl
@[simp] theorem deliver_aScheme (x : List F64) : (deliver s x).aScheme = s.aScheme := rfl
@[simp] theorem deliver_aSpb (x : List F64) : (deliver s x).aSpb = s.aSpb := rfl
@[simp] theorem deliver_aAminLo (x : List F64) : (deliver s x).aAminLo = s.aAminLo := rfl
@[simp] theorem deliver_aAminHi (x : List F64) : (deliver s x).aAminHi = s.aAminHi := rfl
@[simp] theorem deliver_aAmaxLo (x : List F64) : (deliver s x).aAmaxLo = s.aAmaxLo := rfl
@[simp] theorem deliver_aAmaxHi (x : List F64) : (deliver s x).aAmaxHi = s.aAmaxHi := rfl
@[simp] theorem deliver_bitlen (x : List F64) : (deliver s x).bitlen = s.bitlen := rfl
@[simp] theorem deliver_consumers (x : List F64) : (deliver s x).consumers = s.consumers := rfl
@[simp] theorem deliver_outlen (x : List F64) : (deliver s x).outlen = s.outlen := rfl
@[simp] theorem deliver_mem (x : List F64) : (deliver s x).mem = s.mem := rfl
@[simp] theorem deliver_trace (x : List F64) : (deliver s x).trace = s.trace ++ emissionOf s x := rfl
@[simp] theorem deliver_faultMark (x : List F64) : (deliver s x).faultMark = s.faultMark := rfl
@[simp] theorem deliver_pending (x : List F64) : (deliver s x).pending = s.pending := rfl
@[simp] theorem deliver_reads (x : List F64) : (deliver s x).reads = s.reads := rfl
@[simp] theorem deliver_draws (x : List F64) : (deliver s x).draws = s.draws := rfl

/-! ## storeOutput -/

@[simp] theorem storeOutput_params (x : List F64) : (storeOutput s x).params = s.params := rfl
@[simp] theorem storeOutput_cfgValid (x : List F64) : (storeOutput s x).cfgValid = s.cfgValid := rfl
@[simp] theorem storeOutput_outValid (x : List F64) : (storeOutput s x).outValid = true := rfl
@[simp] theorem storeOutput_errcode (x : List F64) : (storeOutput s x).errcode = s.errcode := rfl
@[simp] theorem storeOutput_lastOpc (x : List F64) : (storeOutput s x).lastOpc = s.lastOpc := rfl
@[simp] theorem storeOutput_sScheme (x : List F64) : (storeOutput s x).sScheme = s.sScheme := rfl
@[simp] theorem storeOutput_sSpb (x : List F64) : (storeOutput s x).sSpb = s.sSpb := rfl
@[simp] theorem storeOutput_sAminLo (x : List F64) : (storeOutput s x).sAminLo = s.sAminLo := rfl
@[simp] theorem storeOutput_sAminHi (x : List F64) : (storeOutput s x).sAminHi = s.sAminHi := rfl
@[simp] theorem storeOutput_sAmaxLo (x : List F64) : (storeOutput s x).sAmaxLo = s.sAmaxLo := rfl
@[simp] theorem storeOutput_sAmaxHi (x : List F64) : (storeOutput s x).sAmaxHi = s.sAmaxHi := rfl
@[simp] theorem storeOutput_aScheme (x : List F64) : (storeOutput s x).aScheme = s.aScheme := rfl
@[simp] theorem storeOutput_aSpb (x : List F64) : (storeOutput s x).aSpb = s.aSpb := rfl
@[simp] theorem storeOutput_aAminLo (x : List F64) : (storeOutput s x).aAminLo = s.aAminLo := rfl
@[simp] theorem storeOutput_aAminHi (x : List F64) : (storeOutput s x).aAminHi = s.aAminHi := rfl
@[simp] theorem storeOutput_aAmaxLo (x : List F64) : (storeOutput s x).aAmaxLo = s.aAmaxLo := rfl
@[simp] theorem storeOutput_aAmaxHi (x : List F64) : (storeOutput s x).aAmaxHi = s.aAmaxHi := rfl
@[simp] theorem storeOutput_bitlen (x : List F64) : (storeOutput s x).bitlen = s.bitlen := rfl
@[simp] theorem storeOutput_consumers (x : List F64) : (storeOutput s x).consumers = s.consumers := rfl
@[simp] theorem storeOutput_outlen (x : List F64) : (storeOutput s x).outlen = BitVec.ofNat 32 x.length := rfl
@[simp] theorem storeOutput_mem (x : List F64) : (storeOutput s x).mem = outWrite s.mem x := rfl
@[simp] theorem storeOutput_trace (x : List F64) : (storeOutput s x).trace = s.trace := rfl
@[simp] theorem storeOutput_faultMark (x : List F64) : (storeOutput s x).faultMark = s.faultMark := rfl
@[simp] theorem storeOutput_pending (x : List F64) : (storeOutput s x).pending = s.pending := rfl
@[simp] theorem storeOutput_reads (x : List F64) : (storeOutput s x).reads = s.reads := rfl
@[simp] theorem storeOutput_draws (x : List F64) : (storeOutput s x).draws = s.draws := rfl

/-! ## setPending -/

@[simp] theorem setPending_params (l : List Input) : (setPending s l).params = s.params := rfl
@[simp] theorem setPending_cfgValid (l : List Input) : (setPending s l).cfgValid = s.cfgValid := rfl
@[simp] theorem setPending_outValid (l : List Input) : (setPending s l).outValid = s.outValid := rfl
@[simp] theorem setPending_errcode (l : List Input) : (setPending s l).errcode = s.errcode := rfl
@[simp] theorem setPending_lastOpc (l : List Input) : (setPending s l).lastOpc = s.lastOpc := rfl
@[simp] theorem setPending_sScheme (l : List Input) : (setPending s l).sScheme = s.sScheme := rfl
@[simp] theorem setPending_sSpb (l : List Input) : (setPending s l).sSpb = s.sSpb := rfl
@[simp] theorem setPending_sAminLo (l : List Input) : (setPending s l).sAminLo = s.sAminLo := rfl
@[simp] theorem setPending_sAminHi (l : List Input) : (setPending s l).sAminHi = s.sAminHi := rfl
@[simp] theorem setPending_sAmaxLo (l : List Input) : (setPending s l).sAmaxLo = s.sAmaxLo := rfl
@[simp] theorem setPending_sAmaxHi (l : List Input) : (setPending s l).sAmaxHi = s.sAmaxHi := rfl
@[simp] theorem setPending_aScheme (l : List Input) : (setPending s l).aScheme = s.aScheme := rfl
@[simp] theorem setPending_aSpb (l : List Input) : (setPending s l).aSpb = s.aSpb := rfl
@[simp] theorem setPending_aAminLo (l : List Input) : (setPending s l).aAminLo = s.aAminLo := rfl
@[simp] theorem setPending_aAminHi (l : List Input) : (setPending s l).aAminHi = s.aAminHi := rfl
@[simp] theorem setPending_aAmaxLo (l : List Input) : (setPending s l).aAmaxLo = s.aAmaxLo := rfl
@[simp] theorem setPending_aAmaxHi (l : List Input) : (setPending s l).aAmaxHi = s.aAmaxHi := rfl
@[simp] theorem setPending_bitlen (l : List Input) : (setPending s l).bitlen = s.bitlen := rfl
@[simp] theorem setPending_consumers (l : List Input) : (setPending s l).consumers = s.consumers := rfl
@[simp] theorem setPending_outlen (l : List Input) : (setPending s l).outlen = s.outlen := rfl
@[simp] theorem setPending_mem (l : List Input) : (setPending s l).mem = s.mem := rfl
@[simp] theorem setPending_trace (l : List Input) : (setPending s l).trace = s.trace := rfl
@[simp] theorem setPending_faultMark (l : List Input) : (setPending s l).faultMark = s.faultMark := rfl
@[simp] theorem setPending_pending (l : List Input) : (setPending s l).pending = l := rfl
@[simp] theorem setPending_reads (l : List Input) : (setPending s l).reads = s.reads := rfl
@[simp] theorem setPending_draws (l : List Input) : (setPending s l).draws = s.draws := rfl

/-! ## observe -/

@[simp] theorem observe_params (off : Nat) (v : Word) : (observe s off v).params = s.params := rfl
@[simp] theorem observe_cfgValid (off : Nat) (v : Word) : (observe s off v).cfgValid = s.cfgValid := rfl
@[simp] theorem observe_outValid (off : Nat) (v : Word) : (observe s off v).outValid = s.outValid := rfl
@[simp] theorem observe_errcode (off : Nat) (v : Word) : (observe s off v).errcode = s.errcode := rfl
@[simp] theorem observe_lastOpc (off : Nat) (v : Word) : (observe s off v).lastOpc = s.lastOpc := rfl
@[simp] theorem observe_sScheme (off : Nat) (v : Word) : (observe s off v).sScheme = s.sScheme := rfl
@[simp] theorem observe_sSpb (off : Nat) (v : Word) : (observe s off v).sSpb = s.sSpb := rfl
@[simp] theorem observe_sAminLo (off : Nat) (v : Word) : (observe s off v).sAminLo = s.sAminLo := rfl
@[simp] theorem observe_sAminHi (off : Nat) (v : Word) : (observe s off v).sAminHi = s.sAminHi := rfl
@[simp] theorem observe_sAmaxLo (off : Nat) (v : Word) : (observe s off v).sAmaxLo = s.sAmaxLo := rfl
@[simp] theorem observe_sAmaxHi (off : Nat) (v : Word) : (observe s off v).sAmaxHi = s.sAmaxHi := rfl
@[simp] theorem observe_aScheme (off : Nat) (v : Word) : (observe s off v).aScheme = s.aScheme := rfl
@[simp] theorem observe_aSpb (off : Nat) (v : Word) : (observe s off v).aSpb = s.aSpb := rfl
@[simp] theorem observe_aAminLo (off : Nat) (v : Word) : (observe s off v).aAminLo = s.aAminLo := rfl
@[simp] theorem observe_aAminHi (off : Nat) (v : Word) : (observe s off v).aAminHi = s.aAminHi := rfl
@[simp] theorem observe_aAmaxLo (off : Nat) (v : Word) : (observe s off v).aAmaxLo = s.aAmaxLo := rfl
@[simp] theorem observe_aAmaxHi (off : Nat) (v : Word) : (observe s off v).aAmaxHi = s.aAmaxHi := rfl
@[simp] theorem observe_bitlen (off : Nat) (v : Word) : (observe s off v).bitlen = s.bitlen := rfl
@[simp] theorem observe_consumers (off : Nat) (v : Word) : (observe s off v).consumers = s.consumers := rfl
@[simp] theorem observe_outlen (off : Nat) (v : Word) : (observe s off v).outlen = s.outlen := rfl
@[simp] theorem observe_mem (off : Nat) (v : Word) : (observe s off v).mem = s.mem := rfl
@[simp] theorem observe_trace (off : Nat) (v : Word) : (observe s off v).trace = s.trace := rfl
@[simp] theorem observe_faultMark (off : Nat) (v : Word) : (observe s off v).faultMark = s.faultMark := rfl
@[simp] theorem observe_pending (off : Nat) (v : Word) : (observe s off v).pending = s.pending := rfl
@[simp] theorem observe_reads (off : Nat) (v : Word) : (observe s off v).reads = s.reads ++ [{ off := off, value := v }] := rfl
@[simp] theorem observe_draws (off : Nat) (v : Word) : (observe s off v).draws = s.draws + 1 := rfl

/-! ## bitbufWrite -/

@[simp] theorem bitbufWrite_params (off : Nat) (v : Word) : (bitbufWrite s off v).params = s.params := rfl
@[simp] theorem bitbufWrite_cfgValid (off : Nat) (v : Word) : (bitbufWrite s off v).cfgValid = s.cfgValid := rfl
@[simp] theorem bitbufWrite_outValid (off : Nat) (v : Word) : (bitbufWrite s off v).outValid = s.outValid := rfl
@[simp] theorem bitbufWrite_errcode (off : Nat) (v : Word) : (bitbufWrite s off v).errcode = s.errcode := rfl
@[simp] theorem bitbufWrite_lastOpc (off : Nat) (v : Word) : (bitbufWrite s off v).lastOpc = s.lastOpc := rfl
@[simp] theorem bitbufWrite_sScheme (off : Nat) (v : Word) : (bitbufWrite s off v).sScheme = s.sScheme := rfl
@[simp] theorem bitbufWrite_sSpb (off : Nat) (v : Word) : (bitbufWrite s off v).sSpb = s.sSpb := rfl
@[simp] theorem bitbufWrite_sAminLo (off : Nat) (v : Word) : (bitbufWrite s off v).sAminLo = s.sAminLo := rfl
@[simp] theorem bitbufWrite_sAminHi (off : Nat) (v : Word) : (bitbufWrite s off v).sAminHi = s.sAminHi := rfl
@[simp] theorem bitbufWrite_sAmaxLo (off : Nat) (v : Word) : (bitbufWrite s off v).sAmaxLo = s.sAmaxLo := rfl
@[simp] theorem bitbufWrite_sAmaxHi (off : Nat) (v : Word) : (bitbufWrite s off v).sAmaxHi = s.sAmaxHi := rfl
@[simp] theorem bitbufWrite_aScheme (off : Nat) (v : Word) : (bitbufWrite s off v).aScheme = s.aScheme := rfl
@[simp] theorem bitbufWrite_aSpb (off : Nat) (v : Word) : (bitbufWrite s off v).aSpb = s.aSpb := rfl
@[simp] theorem bitbufWrite_aAminLo (off : Nat) (v : Word) : (bitbufWrite s off v).aAminLo = s.aAminLo := rfl
@[simp] theorem bitbufWrite_aAminHi (off : Nat) (v : Word) : (bitbufWrite s off v).aAminHi = s.aAminHi := rfl
@[simp] theorem bitbufWrite_aAmaxLo (off : Nat) (v : Word) : (bitbufWrite s off v).aAmaxLo = s.aAmaxLo := rfl
@[simp] theorem bitbufWrite_aAmaxHi (off : Nat) (v : Word) : (bitbufWrite s off v).aAmaxHi = s.aAmaxHi := rfl
@[simp] theorem bitbufWrite_bitlen (off : Nat) (v : Word) : (bitbufWrite s off v).bitlen = s.bitlen := rfl
@[simp] theorem bitbufWrite_consumers (off : Nat) (v : Word) : (bitbufWrite s off v).consumers = s.consumers := rfl
@[simp] theorem bitbufWrite_outlen (off : Nat) (v : Word) : (bitbufWrite s off v).outlen = s.outlen := rfl
@[simp] theorem bitbufWrite_mem (off : Nat) (v : Word) : (bitbufWrite s off v).mem = Memory.write s.mem off (wordBytes v) := rfl
@[simp] theorem bitbufWrite_trace (off : Nat) (v : Word) : (bitbufWrite s off v).trace = s.trace := rfl
@[simp] theorem bitbufWrite_faultMark (off : Nat) (v : Word) : (bitbufWrite s off v).faultMark = s.faultMark := rfl
@[simp] theorem bitbufWrite_pending (off : Nat) (v : Word) : (bitbufWrite s off v).pending = s.pending := rfl
@[simp] theorem bitbufWrite_reads (off : Nat) (v : Word) : (bitbufWrite s off v).reads = s.reads := rfl
@[simp] theorem bitbufWrite_draws (off : Nat) (v : Word) : (bitbufWrite s off v).draws = s.draws := rfl

/-! ## What a reset leaves -/

@[simp] theorem resetBlock_params : (resetBlock s).params = s.params := rfl
@[simp] theorem resetBlock_cfgValid : (resetBlock s).cfgValid = (State.resetWith s.params).cfgValid := rfl
@[simp] theorem resetBlock_outValid : (resetBlock s).outValid = (State.resetWith s.params).outValid := rfl
@[simp] theorem resetBlock_errcode : (resetBlock s).errcode = (State.resetWith s.params).errcode := rfl
@[simp] theorem resetBlock_lastOpc : (resetBlock s).lastOpc = (State.resetWith s.params).lastOpc := rfl
@[simp] theorem resetBlock_sScheme : (resetBlock s).sScheme = (State.resetWith s.params).sScheme := rfl
@[simp] theorem resetBlock_sSpb : (resetBlock s).sSpb = (State.resetWith s.params).sSpb := rfl
@[simp] theorem resetBlock_sAminLo : (resetBlock s).sAminLo = (State.resetWith s.params).sAminLo := rfl
@[simp] theorem resetBlock_sAminHi : (resetBlock s).sAminHi = (State.resetWith s.params).sAminHi := rfl
@[simp] theorem resetBlock_sAmaxLo : (resetBlock s).sAmaxLo = (State.resetWith s.params).sAmaxLo := rfl
@[simp] theorem resetBlock_sAmaxHi : (resetBlock s).sAmaxHi = (State.resetWith s.params).sAmaxHi := rfl
@[simp] theorem resetBlock_aScheme : (resetBlock s).aScheme = (State.resetWith s.params).aScheme := rfl
@[simp] theorem resetBlock_aSpb : (resetBlock s).aSpb = (State.resetWith s.params).aSpb := rfl
@[simp] theorem resetBlock_aAminLo : (resetBlock s).aAminLo = (State.resetWith s.params).aAminLo := rfl
@[simp] theorem resetBlock_aAminHi : (resetBlock s).aAminHi = (State.resetWith s.params).aAminHi := rfl
@[simp] theorem resetBlock_aAmaxLo : (resetBlock s).aAmaxLo = (State.resetWith s.params).aAmaxLo := rfl
@[simp] theorem resetBlock_aAmaxHi : (resetBlock s).aAmaxHi = (State.resetWith s.params).aAmaxHi := rfl
@[simp] theorem resetBlock_bitlen : (resetBlock s).bitlen = (State.resetWith s.params).bitlen := rfl
@[simp] theorem resetBlock_consumers : (resetBlock s).consumers = (State.resetWith s.params).consumers := rfl
@[simp] theorem resetBlock_outlen : (resetBlock s).outlen = (State.resetWith s.params).outlen := rfl
@[simp] theorem resetBlock_mem : (resetBlock s).mem = (State.resetWith s.params).mem := rfl
@[simp] theorem resetBlock_trace : (resetBlock s).trace = (State.resetWith s.params).trace := rfl
@[simp] theorem resetBlock_faultMark : (resetBlock s).faultMark = s.faultMark := rfl
@[simp] theorem resetBlock_pending : (resetBlock s).pending = s.pending := rfl
@[simp] theorem resetBlock_reads : (resetBlock s).reads = (State.resetWith s.params).reads := rfl
@[simp] theorem resetBlock_draws : (resetBlock s).draws = s.draws := rfl

end Sys2Proof.Machine
end

