-- ==== Sys2Proof/Laws/Waveform.lean ====
section
/-! SUPPORT. The waveforms: S samples per bit, and the shape of each bit's samples. -/

namespace Sys2Proof.Machine

theorem rampUp_ref (j k : Nat) (mid lvl : F64) : rampUp 0 j k mid lvl = refRampUp j k mid lvl := if_pos rfl

theorem rampDown_ref (j L : Nat) (mid lvl : F64) : rampDown 0 j L mid lvl = refRampDown j L mid lvl := if_pos rfl

/-- The three segments together hold the S samples of a bit (R78). -/
theorem segments_sum (S : Nat) : segK S + (segK S + segL S) = S := by unfold segL segK; omega

@[simp] theorem length_nrztSeg1 (p : Config.Params) (amin amax : F64) (S : Nat) (prev : Option Bool) (b : Bool) :
    (nrztSeg1 p amin amax S prev b).length = segK S := by unfold nrztSeg1; split <;> simp

@[simp] theorem length_nrztSeg3 (p : Config.Params) (amin amax : F64) (S : Nat) (b : Bool) (next : Option Bool) :
    (nrztSeg3 p amin amax S b next).length = segL S := by unfold nrztSeg3; split <;> simp

@[simp] theorem length_nrztWave (p : Config.Params) (amin amax : F64) (S : Nat) (prev : Option Bool) (b : Bool)
    (next : Option Bool) : (nrztWave p amin amax S prev b next).length = S := by
  simp [nrztWave, segments_sum]

@[simp] theorem length_rzWave (amax : F64) (S : Nat) (b : Bool) : (rzWave amax S b).length = S := by
  simp [rzWave, segments_sum]

theorem length_flatMap_of_const {f : Bool → List F64} {S : Nat} (hf : ∀ b, (f b).length = S) (bits : List Bool) :
    (bits.flatMap f).length = bits.length * S := by
  induction bits with
  | nil => simp
  | cons b bits ih => rw [List.flatMap_cons, List.length_append, hf, ih, List.length_cons, Nat.succ_mul, Nat.add_comm]

theorem length_nrztFrom (p : Config.Params) (amin amax : F64) (S : Nat) (prev : Option Bool) (bits : List Bool) :
    (nrztFrom p amin amax S prev bits).length = bits.length * S := by
  induction bits generalizing prev with
  | nil => simp [nrztFrom]
  | cons b bits ih =>
    rw [nrztFrom, List.length_append, length_nrztWave, ih, List.length_cons, Nat.succ_mul, Nat.add_comm]

/-- Every scheme gives S samples per bit (R77). -/
theorem length_modulate (p : Config.Params) (sch : Scheme) (amin amax : F64) (S : Nat) (bits : List Bool) :
    (modulate p sch amin amax S bits).length = bits.length * S := by
  cases sch
  · exact length_flatMap_of_const (fun b => by simp) bits
  · exact length_nrztFrom _ _ _ _ _ _
  · exact length_flatMap_of_const (fun b => length_rzWave _ _ _) bits

/-- The samples of bit `i` in a concatenation of blocks of S samples (R77). -/
theorem getElem?_flatMap_of_const {f : Bool → List F64} {S : Nat} (hf : ∀ b, (f b).length = S) (bits : List Bool)
    (i j : Nat) (hj : j < S) : (bits.flatMap f)[i * S + j]? = bits[i]?.bind fun b => (f b)[j]? := by
  induction bits generalizing i with
  | nil => simp
  | cons b bits ih =>
    cases i with
    | zero => rw [List.flatMap_cons, Nat.zero_mul, Nat.zero_add, List.getElem?_append_left (by rw [hf]; exact hj)]; simp
    | succ i =>
      rw [List.flatMap_cons, List.getElem?_append_right (by rw [hf, Nat.succ_mul]; omega), hf,
        show (i + 1) * S + j - S = i * S + j by rw [Nat.succ_mul]; omega, ih]
      simp

/-- The neighbour before bit `i` of a sequence that follows a bit `prev`. -/
def bitBefore (prev : Option Bool) (bits : List Bool) (i : Nat) : Option Bool := if i = 0 then prev else bits[i - 1]?

/-- The samples of bit `i` under NRZT: the wave of the bit between its two neighbours (R83). -/
theorem getElem?_nrztFrom (p : Config.Params) (amin amax : F64) (S : Nat) (prev : Option Bool) (bits : List Bool)
    (i j : Nat) (hj : j < S) :
    (nrztFrom p amin amax S prev bits)[i * S + j]? =
      bits[i]?.bind fun b => (nrztWave p amin amax S (bitBefore prev bits i) b bits[i + 1]?)[j]? := by
  induction bits generalizing prev i with
  | nil => simp [nrztFrom]
  | cons b bits ih =>
    cases i with
    | zero =>
      rw [nrztFrom, Nat.zero_mul, Nat.zero_add, List.getElem?_append_left (by simpa using hj)]
      simp [bitBefore, List.head?_eq_getElem?]
    | succ i =>
      rw [nrztFrom, List.getElem?_append_right (by rw [length_nrztWave, Nat.succ_mul]; omega), length_nrztWave,
        show (i + 1) * S + j - S = i * S + j by rw [Nat.succ_mul]; omega, ih]
      cases i <;> simp [bitBefore]

end Sys2Proof.Machine
end

