-- ==== Sys2Proof/Laws/Commands.lean ====
section
/-! SUPPORT. What a command and a step can do, said once; later proofs cite these and unfold no meaning. -/

namespace Sys2Proof.Machine

open Sys2Proof.Safety

/-- The scheme codes that are known, and their schemes (R61). -/
theorem schemeOf_eq_some {code : Nat} {sch : Scheme} : schemeOf code = some sch ↔ SchemeCode sch code := by
  unfold schemeOf SchemeCode
  split_ifs <;> cases sch <;> simp <;> omega

/-- `rx_check` passes exactly under the conditions of R75. -/
theorem rxCheck_eq_ok {s : State} {sch : Scheme} :
    rxCheck s = .ok sch ↔ s.cfgValid = true ∧ 0 < s.bitlen.toNat ∧ schemeOf s.aScheme.toNat = some sch ∧
      s.bitlen.toNat ≤ s.params.maxBits ∧ s.bitlen.toNat * s.aSpb.toNat ≤ s.params.maxSamples := by
  unfold rxCheck inputBits activeScheme activeSpb
  cases hc : s.cfgValid with
  | false => simp
  | true =>
    by_cases hn : s.bitlen.toNat = 0
    · simp [hn]
    · have hpos : 0 < s.bitlen.toNat := Nat.pos_of_ne_zero hn
      cases hsch : schemeOf s.aScheme.toNat with
      | none => simp [hn]
      | some sch' =>
        by_cases hcap : s.params.maxBits < s.bitlen.toNat ∨ s.params.maxSamples < s.bitlen.toNat * s.aSpb.toNat
        · simp only [hn, hcap, if_true, if_false]
          constructor
          · intro h
            cases h
          · intro h
            omega
        · simp only [hn, hcap, if_false, hpos]
          simp only [reduceCtorEq, if_false, Except.ok.injEq, Option.some.injEq, true_and]
          constructor
          · intro h
            exact ⟨h, by omega, by omega⟩
          · intro h
            exact h.1

/-- A RECEIVE in a state whose conditions hold commits the output of its bits. -/
theorem execReceive_of_receivable {s : State} {sch : Scheme} {bits : List Bool} (h : Receivable s sch bits) :
    execReceive s =
      .next (rxCommit s (modulate s.params sch (activeAmin s) (activeAmax s) (activeSpb s) bits)) := by
  have hok : rxCheck s = .ok sch :=
    rxCheck_eq_ok.2 ⟨h.configured, h.nonempty, schemeOf_eq_some.2 h.scheme_known, h.bits_fit, h.samples_fit⟩
  have hbits : readBits s.mem 0 (inputBits s) = some bits :=
    readBits_eq_some.2 ⟨h.bits_length, fun j hj => by
      simpa using h.bits_written j (by rw [h.bits_length]; exact hj)⟩
  unfold execReceive
  simp only [hok, hbits]

/-- What a RECEIVE that answers a next state has done. -/
theorem execReceive_cases {s t : State} (h : execReceive s = .next t) :
    (∃ e, t = raise s e) ∨ ∃ sch bits, Receivable s sch bits ∧
      t = rxCommit s (modulate s.params sch (activeAmin s) (activeAmax s) (activeSpb s) bits) := by
  unfold execReceive at h
  split at h
  · next e he => cases h; exact .inl ⟨e, rfl⟩
  · next sch hsch =>
    split at h
    · cases h
    · next bits hbits =>
      cases h
      obtain ⟨h1, h2, h3, h4, h5⟩ := rxCheck_eq_ok.1 hsch
      obtain ⟨hl, hr⟩ := readBits_eq_some.1 hbits
      exact .inr ⟨sch, bits, ⟨h1, h2, schemeOf_eq_some.1 h3, h4, h5, hl, fun i hi => by simpa using hr i (hl ▸ hi)⟩, rfl⟩

/-- What a command that answers a next state has done (R98, R99): it reported one error and changed nothing else, or
it was one of the five and succeeded. -/
theorem exec_cases {i : Instr} {s t : State} (h : exec i s = .next t) :
    (∃ e, t = raise s e) ∨
    (i = .config ∧ amplitudesValid (stagedAmin s) (stagedAmax s) = true ∧ spbValid s.sSpb.toNat = true ∧
      t = succeed (commitConfig s)) ∨
    (i = .receive ∧ ∃ sch bits, Receivable s sch bits ∧
      t = rxCommit s (modulate s.params sch (activeAmin s) (activeAmax s) (activeSpb s) bits)) ∨
    (i = .emit ∧ s.outValid = true ∧ t = succeed (deliver s (storedOutput s))) ∨
    (∃ c, i = .connect c ∧ c < s.params.maxConsumers ∧ t = succeed (connectSlot s c)) ∨
    (∃ c, i = .disconnect c ∧ c < s.params.maxConsumers ∧ t = succeed (disconnectSlot s c)) := by
  cases i with
  | config =>
    simp only [exec, execConfig] at h
    split at h
    · cases h; exact .inl ⟨_, rfl⟩
    · split at h
      · cases h; exact .inl ⟨_, rfl⟩
      · next h1 h2 =>
        cases h
        exact .inr (.inl ⟨rfl, by simpa using h1, by simpa using h2, rfl⟩)
  | receive =>
    rcases execReceive_cases h with h | h
    · exact .inl h
    · exact .inr (.inr (.inl ⟨rfl, h⟩))
  | emit =>
    simp only [exec, execEmit] at h
    split at h
    · cases h; exact .inl ⟨_, rfl⟩
    · next h1 =>
      cases h
      exact .inr (.inr (.inr (.inl ⟨rfl, by simpa using h1, rfl⟩)))
  | connect c =>
    simp only [exec, execConnect] at h
    split at h
    · cases h; exact .inl ⟨_, rfl⟩
    · next h1 =>
      cases h
      exact .inr (.inr (.inr (.inr (.inl ⟨c, rfl, by omega, rfl⟩))))
  | disconnect c =>
    simp only [exec, execDisconnect] at h
    split at h
    · cases h; exact .inl ⟨_, rfl⟩
    · next h1 =>
      cases h
      exact .inr (.inr (.inr (.inr (.inr ⟨c, rfl, by omega, rfl⟩))))

/-- What a write of CMD that answers a next state has done (R59, R62). -/
theorem performCommand_cases {s t : State} {w : Word} (h : performCommand s w = .next t) :
    ((∃ e, decode w = .error e) ∧ t = raise (setLastOpc s (opcField w)) .illegalCommand) ∨
    ∃ i, decode w = .ok i ∧ exec i (setLastOpc s (opcField w)) = .next t := by
  unfold performCommand at h
  split at h
  · next e he => cases h; exact .inl ⟨⟨e, he⟩, rfl⟩
  · next i hi => exact .inr ⟨i, hi, h⟩

/-! ## Admission -/

/-- An access is admitted exactly if it is 32 bits wide, aligned, mapped, and in an allowed direction (R39). -/
theorem admission_eq_ok {p : Config.Params} {dir : Direction} {width off : Nat} {r : Region} :
    admission p dir width off = .ok r ↔ width = 32 ∧ off % 4 = 0 ∧ regionOf p off = some r ∧ allows r dir = true := by
  unfold admission
  by_cases hw : width = 32
  · by_cases ho : off % 4 = 0
    · cases hr : regionOf p off with
      | none => simp [hw, ho]
      | some r' =>
        by_cases ha : allows r' dir = true
        · simp only [hw, ho, ha, ne_eq, not_true_eq_false, if_false, if_true, Except.ok.injEq, Option.some.injEq,
            true_and]
          constructor
          · rintro rfl; exact ⟨rfl, ha⟩
          · exact fun h => h.1
        · simp only [hw, ho, ha, ne_eq, not_true_eq_false, if_false, reduceCtorEq, Option.some.injEq, true_and,
            false_iff, not_and]
          rintro rfl
          exact ha
    · simp [hw, ho]
  · simp [hw]

/-- CMD stands at offset 0 only. -/
theorem regionOf_eq_cmd {p : Config.Params} {off : Nat} (h : regionOf p off = some .cmd) : off = 0 := by
  unfold regionOf at h
  split at h
  · simp only [registerMap, List.lookup] at h
    split at h
    · next h0 => simpa using h0
    · repeat (split at h; · cases h)
      cases h
  · split at h
    · cases h
    · split at h <;> cases h

/-- BITBUF stands at its offsets only (R37). -/
theorem regionOf_eq_bitbuf {p : Config.Params} {off : Nat} (h : regionOf p off = some .bitbuf) :
    bitbufBase ≤ off ∧ off < bitbufBase + p.maxBits / 8 := by
  unfold regionOf at h
  split at h
  · simp only [registerMap, List.lookup] at h
    repeat (split at h; · cases h)
    cases h
  · next h0 =>
    split at h
    · next h1 => exact ⟨by unfold bitbufBase; omega, h1⟩
    · split at h <;> cases h

/-- A host read that answers a next state only observes (R50). -/
theorem hostRead_cases {s t : State} {width off : Nat} (h : hostRead s width off = .next t) :
    ∃ v, t = observe s off v := by
  unfold hostRead at h
  split at h <;> cases h <;> exact ⟨_, rfl⟩

/-- What a host write that answers a next state has done (R41). -/
theorem hostWrite_cases {s t : State} {width off : Nat} {v : Word} (h : hostWrite s width off v = .next t) :
    width = 32 ∧ off % 4 = 0 ∧
      ((off = 0 ∧ performCommand s v = .next t) ∨
      (∃ r, regionOf s.params off = some (.register r) ∧ regWritable r = true ∧ t = regWrite s r v) ∨
      (bitbufBase ≤ off ∧ off < bitbufBase + s.params.maxBits / 8 ∧ t = bitbufWrite s off v)) := by
  unfold hostWrite at h
  split at h
  · cases h
  · next ha =>
    obtain ⟨h1, h2, h3, -⟩ := admission_eq_ok.1 ha
    exact ⟨h1, h2, .inl ⟨regionOf_eq_cmd h3, h⟩⟩
  · next r ha =>
    obtain ⟨h1, h2, h3, h4⟩ := admission_eq_ok.1 ha
    cases h
    exact ⟨h1, h2, .inr (.inl ⟨r, h3, h4, rfl⟩)⟩
  · next ha =>
    obtain ⟨h1, h2, h3, -⟩ := admission_eq_ok.1 ha
    cases h
    have := regionOf_eq_bitbuf h3
    exact ⟨h1, h2, .inr (.inr ⟨this.1, this.2, rfl⟩)⟩
  · cases h

/-- What a step that answers a next state has done: nothing was pending, the platform reset the block, the host read,
the host wrote. -/
theorem step_cases {s t : State} (h : step s = .next t) :
    s.faultMark = false ∧
    ((s.pending = [] ∧ t = s) ∨
    (∃ rest, s.pending = .reset :: rest ∧ t = resetBlock (setPending s rest)) ∨
    (∃ rest width off, s.pending = .access (.read width (s.params.base + off)) :: rest ∧
      hostRead (setPending s rest) width off = .next t) ∨
    (∃ rest width off v, s.pending = .access (.write width (s.params.base + off) v) :: rest ∧
      hostWrite (setPending s rest) width off v = .next t)) := by
  unfold step takeInput at h
  split at h
  · cases h
  next hf =>
  refine ⟨by simpa using hf, ?_⟩
  split at h
  · next hp => cases h; exact .inl ⟨hp, rfl⟩
  · next rest hp => cases h; exact .inr (.inl ⟨rest, hp, rfl⟩)
  · next a rest hp =>
    unfold hostAccess at h
    split at h
    · next width addr =>
      split at h
      · cases h
      · next off ho =>
        unfold offsetOf at ho
        split at ho
        · next hb =>
          have hb : s.params.base ≤ addr := hb
          have e : addr = s.params.base + off := by
            have ho : addr - s.params.base = off := by simpa using ho
            omega
          exact .inr (.inr (.inl ⟨rest, width, off, e ▸ hp, h⟩))
        · cases ho
    · next width addr v =>
      split at h
      · cases h
      · next off ho =>
        unfold offsetOf at ho
        split at ho
        · next hb =>
          have hb : s.params.base ≤ addr := hb
          have e : addr = s.params.base + off := by
            have ho : addr - s.params.base = off := by simpa using ho
            omega
          exact .inr (.inr (.inr ⟨rest, width, off, v, e ▸ hp, h⟩))
        · cases ho

end Sys2Proof.Machine
end

