-- ==== Sys2Proof/Laws/Ramp.lean ====
section
/-! SUPPORT. The binary64 facts behind NRZT (R81, R86): sums, the midpoint, the level's distance from it, the start of
a REF ramp. -/

namespace Sys2Proof

open Sys2Proof.Machine

theorem F64.roundMag_zero (den : Nat) : F64.roundMag 0 den = 0 := by
  simp [F64.roundMag, F64.scaleOf, F64.nearestEven]

theorem F64.not_isNaN_of_finite {x : F64} (h : x.isFinite = true) : x.isNaN = false := by
  simp only [F64.isFinite, bne_iff_ne] at h
  simp [F64.isNaN, h]

theorem F64.not_isInf_of_finite {x : F64} (h : x.isFinite = true) : x.isInf = false := by
  simp only [F64.isFinite, bne_iff_ne] at h
  simp [F64.isInf, h]

theorem F64.natAbs_units (x : F64) : x.units.natAbs = x.mag := by
  unfold F64.units
  split <;> simp

theorem F64.add_of_finite {a b : F64} (ha : a.isFinite = true) (hb : b.isFinite = true) :
    F64.add a b = F64.addFinite a b := by simp [F64.add, ha, hb]

/-- The sign that a finite sum gets. -/
def F64.sumSign (a b : F64) : Bool :=
  if a.units + b.units = 0 then a.sign && b.sign else decide (a.units + b.units < 0)

theorem F64.add_eq_pack {a b : F64} (ha : a.isFinite = true) (hb : b.isFinite = true) :
    F64.add a b = F64.pack (F64.sumSign a b) (F64.roundMag (a.units + b.units).natAbs 1) :=
  F64.add_of_finite ha hb

theorem F64.low_add {a b : F64} (ha : a.isFinite = true) (hb : b.isFinite = true) :
    (F64.add a b).low = F64.roundMag (a.units + b.units).natAbs 1 := by
  rw [F64.add_eq_pack ha hb, F64.low_pack _ (F64.roundMag_lt _ _)]

theorem F64.sign_add {a b : F64} (ha : a.isFinite = true) (hb : b.isFinite = true) :
    (F64.add a b).sign = F64.sumSign a b := by
  rw [F64.add_eq_pack ha hb, F64.sign_pack _ (F64.roundMag_lt _ _)]

/-- A sum whose exact magnitude is at most that of a finite number is finite. -/
theorem F64.isFinite_add {a b x : F64} (ha : a.isFinite = true) (hb : b.isFinite = true) (hx : x.isFinite = true)
    (h : (a.units + b.units).natAbs ≤ x.mag) : (F64.add a b).isFinite = true := by
  rw [F64.isFinite_iff] at hx ⊢
  rw [F64.low_add ha hb]
  refine lt_of_le_of_lt (F64.roundMag_mono one_pos one_pos (Nat.mul_le_mul_right 1 h)) ?_
  rwa [F64.roundMag_mag ((F64.isFinite_iff x).2 hx)]

theorem F64.low_neg (x : F64) : (F64.neg x).low = x.low := F64.low_pack _ x.low_lt

theorem F64.sign_neg (x : F64) : (F64.neg x).sign = !x.sign := F64.sign_pack _ x.low_lt

theorem F64.isFinite_neg (x : F64) : (F64.neg x).isFinite = x.isFinite := by
  rw [Bool.eq_iff_iff, F64.isFinite_iff, F64.isFinite_iff, F64.low_neg]

theorem F64.units_neg (x : F64) : (F64.neg x).units = -x.units := by
  unfold F64.units
  rw [F64.sign_neg, F64.mag_eq, F64.mag_eq, F64.low_neg]
  cases x.sign <;> simp

/-! ## The midpoint -/

theorem F64.two_facts : F64.two.isFinite = true ∧ F64.two.mag = 2 ^ 1075 ∧ F64.two.sign = false := by decide +kernel

/-- The midpoint halves the sum and rounds (R81). -/
theorem midLevel_eq {amin amax : F64} (hs : F64.isFinite (F64.add amax amin) = true) :
    midLevel amin amax =
      F64.pack (F64.add amax amin).sign (F64.roundMag ((F64.add amax amin).mag * 2 ^ 1074) (2 ^ 1075)) := by
  obtain ⟨h1, h2, h3⟩ := F64.two_facts
  rw [midLevel, F64.div, F64.not_isNaN_of_finite hs, F64.not_isInf_of_finite hs, F64.not_isNaN_of_finite h1,
    F64.not_isInf_of_finite h1, h2, h3, if_neg (by decide), if_neg (by decide), if_neg (by decide),
    if_neg (pow_ne_zero _ two_ne_zero), Bool.bne_false]

theorem low_midLevel {amin amax : F64} (hs : F64.isFinite (F64.add amax amin) = true) :
    (midLevel amin amax).low = F64.roundMag ((F64.add amax amin).mag * 2 ^ 1074) (2 ^ 1075) := by
  rw [midLevel_eq hs, F64.low_pack _ (F64.roundMag_lt _ _)]

/-- Halving never gives a greater magnitude. -/
theorem low_midLevel_le {amin amax : F64} (hs : F64.isFinite (F64.add amax amin) = true) :
    (midLevel amin amax).low ≤ (F64.add amax amin).low := by
  rw [low_midLevel hs, ← F64.roundMag_mag hs]
  refine F64.roundMag_mono (by positivity) one_pos ?_
  rw [mul_one, pow_succ 2 1074]
  exact Nat.mul_le_mul_left _ (Nat.le_mul_of_pos_right _ two_pos)

/-- The midpoint of amplitudes with a finite sum is finite (R81). -/
theorem midLevel_finite {amin amax : F64} (hs : F64.isFinite (F64.add amax amin) = true) :
    (midLevel amin amax).isFinite = true := by
  rw [F64.isFinite_iff]
  exact lt_of_le_of_lt (low_midLevel_le hs) ((F64.isFinite_iff _).1 hs)

/-- The midpoint's magnitude is at most that of the exact sum. -/
theorem mag_midLevel_le {amin amax : F64} (h0 : amin.isFinite = true) (h1 : amax.isFinite = true)
    (hs : F64.isFinite (F64.add amax amin) = true) :
    (midLevel amin amax).mag ≤ (amax.units + amin.units).natAbs := by
  have hle := F64.magOf_strictMono.monotone (low_midLevel_le hs)
  have hlow := F64.low_add h1 h0
  have hfin := (F64.isFinite_iff _).1 hs
  rw [F64.mag_eq]
  generalize ht : (amax.units + amin.units).natAbs = t at hlow ⊢
  have hub : (F64.add amax amin).low = F64.roundUnbounded t 1 := by
    rw [F64.roundMag_eq] at hlow
    omega
  have hval := F64.magOf_roundUnbounded t 1
  rw [← hub, one_mul] at hval
  obtain ⟨hb1, hb2⟩ := F64.significand_bounds t 1
  rw [one_mul] at hb1 hb2
  rcases Nat.eq_zero_or_pos (F64.scaleOf t 1) with he | he
  · rw [he, pow_zero, mul_one] at hval
    have := F64.nearestEven_mul t one_pos
    rw [mul_one] at this
    omega
  · generalize hm : F64.nearestEven t (2 ^ F64.scaleOf t 1) = m at hval hb1 hb2
    have hm2 : 2 ^ 52 ≤ m := by omega
    obtain ⟨e, hee⟩ : ∃ e, F64.scaleOf t 1 = e + 1 := ⟨_, (Nat.succ_pred_eq_of_pos he).symm⟩
    have hhalf : F64.magOf (e * 2 ^ 52 + m) = m * 2 ^ e := F64.magOf_scaled hb1 (.inr hm2)
    have hmag : (F64.add amax amin).mag = m * 2 ^ e * 2 := by rw [F64.mag_eq, hval, hee, pow_succ, mul_assoc]
    have hltn : e * 2 ^ 52 + m ≤ F64.infMag := by
      have : F64.roundUnbounded t 1 = (e + 1) * 2 ^ 52 + m := by rw [F64.roundUnbounded, one_mul, hee, ← hm, hee]
      omega
    have hround : (midLevel amin amax).low = e * 2 ^ 52 + m := by
      rw [low_midLevel hs, hmag, ← hhalf, mul_assoc, show (2 : Nat) * 2 ^ 1074 = 2 ^ 1075 from (pow_succ' 2 1074).symm]
      exact F64.roundMag_magOf hltn (Nat.two_pow_pos 1075)
    have hrd := F64.two_nearestEven_mul_le t (2 ^ F64.scaleOf t 1)
    rw [hm, hee] at hrd
    have hpow : 2 ^ (e + 1) ≤ t := by
      have hs1 : F64.scaleOf t 1 = Nat.log2 t - 52 := by rw [F64.scaleOf, Nat.div_one]
      have hne : t ≠ 0 := by
        rintro rfl
        simp at hs1
        omega
      exact le_trans (Nat.pow_le_pow_right (by norm_num) (by omega)) (Nat.log2_self_le hne)
    rw [hround, hhalf]
    rw [pow_succ] at hrd hpow
    nlinarith

/-- The midpoint lies between zero and the exact sum. -/
theorem units_midLevel {amin amax : F64} (h0 : amin.isFinite = true) (h1 : amax.isFinite = true)
    (hs : F64.isFinite (F64.add amax amin) = true) :
    (0 ≤ (midLevel amin amax).units ∧ (midLevel amin amax).units ≤ amax.units + amin.units) ∨
      (amax.units + amin.units ≤ (midLevel amin amax).units ∧ (midLevel amin amax).units ≤ 0) := by
  have hm := mag_midLevel_le h0 h1 hs
  have hsg : (midLevel amin amax).sign = F64.sumSign amax amin := by
    rw [midLevel_eq hs, F64.sign_pack _ (F64.roundMag_lt _ _), F64.sign_add h1 h0]
  unfold F64.units at hm ⊢
  rw [hsg]
  generalize (midLevel amin amax).mag = m at hm ⊢
  have hd : F64.sumSign amax amin = if amax.units + amin.units = 0 then amax.sign && amin.sign
    else decide (amax.units + amin.units < 0) := rfl
  unfold F64.units at hd
  generalize (if amax.sign = true then -(amax.mag : Int) else (amax.mag : Int)) = a at *
  generalize (if amin.sign = true then -(amin.mag : Int) else (amin.mag : Int)) = b at *
  by_cases hz : a + b = 0
  · rw [hz] at hm
    have : m = 0 := by simpa using hm
    subst this
    left
    split <;> omega
  · rw [if_neg hz] at hd
    by_cases hneg : a + b < 0
    · rw [hd, if_pos (by simpa using hneg)]
      right
      omega
    · rw [hd, if_neg (by simpa using hneg)]
      left
      omega

/-- The distance of a level from the midpoint is finite. -/
theorem sub_midLevel_finite {amin amax : F64} (h0 : amin.isFinite = true) (h1 : amax.isFinite = true)
    (hs : F64.isFinite (F64.add amax amin) = true) (b : Bool) :
    (F64.sub (level amin amax b) (midLevel amin amax)).isFinite = true := by
  have hl : (level amin amax b).isFinite = true := by cases b <;> assumption
  have hmid := midLevel_finite hs
  have hneg : (F64.neg (midLevel amin amax)).isFinite = true := by rw [F64.isFinite_neg]; exact hmid
  have hu := units_midLevel h0 h1 hs
  have ha := F64.natAbs_units amax
  have hb := F64.natAbs_units amin
  have key : ((level amin amax b).units + (F64.neg (midLevel amin amax)).units).natAbs ≤ amax.mag ∨
      ((level amin amax b).units + (F64.neg (midLevel amin amax)).units).natAbs ≤ amin.mag := by
    rw [F64.units_neg]
    cases b
    · show (amin.units + -(midLevel amin amax).units).natAbs ≤ _ ∨ (amin.units + -(midLevel amin amax).units).natAbs ≤ _
      omega
    · show (amax.units + -(midLevel amin amax).units).natAbs ≤ _ ∨ (amax.units + -(midLevel amin amax).units).natAbs ≤ _
      omega
  exact key.elim (F64.isFinite_add hl hneg h1) (F64.isFinite_add hl hneg h0)

/-! ## The start of a REF ramp -/

theorem F64.ofNat_zero : F64.ofNat 0 = F64.posZero := by decide +kernel

theorem F64.div_zero_ofNat {k : Nat} (hk : 0 < k) : F64.div F64.posZero (F64.ofNat k) = F64.posZero := by
  have hlow : (F64.ofNat k).low = F64.roundMag (k * 2 ^ 1074) 1 := F64.low_pack _ (F64.roundMag_lt _ _)
  have hsign : (F64.ofNat k).sign = false := F64.sign_pack _ (F64.roundMag_lt _ _)
  have hle : (F64.ofNat k).low ≤ F64.infMag := hlow ▸ F64.roundMag_le _ _
  have hpos : 0 < (F64.ofNat k).low := by
    have h1 := F64.roundMag_mono (num := 1 * 2 ^ 1074) (num' := k * 2 ^ 1074) one_pos one_pos
      (by rw [mul_one, mul_one]; exact Nat.mul_le_mul_right _ hk)
    have h2 : 0 < F64.roundMag (1 * 2 ^ 1074) 1 := by decide +kernel
    omega
  have hmag : (F64.ofNat k).mag ≠ 0 := by
    rw [F64.mag_eq]
    have := F64.magOf_strictMono hpos
    omega
  have hnan : (F64.ofNat k).isNaN = false := by
    simp only [F64.isNaN, F64.expField_eq, F64.fraction_eq]
    unfold F64.infMag at hle
    rw [Bool.and_eq_false_iff, beq_eq_false_iff_ne, bne_eq_false_iff_eq]
    omega
  have hz : F64.posZero.isNaN = false ∧ F64.posZero.isInf = false ∧ F64.posZero.mag = 0 ∧ F64.posZero.sign = false ∧
    F64.pack false 0 = F64.posZero := by decide +kernel
  obtain ⟨z1, z2, z3, z4, z5⟩ := hz
  rw [F64.div, hnan, z1, z2, z3, z4, hsign, zero_mul, F64.roundMag_zero]
  simp [hmag, z5]

theorem F64.mul_posZero {d : F64} (hd : d.isFinite = true) : F64.mul d F64.posZero = F64.pack d.sign 0 := by
  have hz : F64.posZero.isFinite = true ∧ F64.posZero.mag = 0 ∧ F64.posZero.sign = false := by decide +kernel
  obtain ⟨z1, z2, z3⟩ := hz
  rw [F64.mul, hd, z1, z2, z3, mul_zero, F64.roundMag_zero]
  simp

/-- Adding a zero to a finite number gives the number, but for a zero's sign. -/
theorem F64.add_zero {x : F64} (hx : x.isFinite = true) (z : Bool) :
    (F64.add x (F64.pack z 0)).low = x.low ∧ (x.mag ≠ 0 → F64.add x (F64.pack z 0) = x) ∧
      (x.sign = false → F64.add x (F64.pack z 0) = x) := by
  have hp : (0 : Nat) < 2 ^ 63 := by positivity
  have hzl := F64.low_pack z hp
  have hzs := F64.sign_pack z hp
  have hzf : (F64.pack z 0).isFinite = true := by rw [F64.isFinite_iff, hzl]; norm_num [F64.infMag]
  have hzu : (F64.pack z 0).units = 0 := by
    have : (F64.pack z 0).mag = 0 := by rw [F64.mag_eq, hzl]; rfl
    unfold F64.units
    rw [this]
    simp
  have hlow : (F64.add x (F64.pack z 0)).low = x.low := by
    rw [F64.low_add hx hzf, hzu, Int.add_zero, F64.natAbs_units, F64.roundMag_mag hx]
  have hsign : (F64.add x (F64.pack z 0)).sign = if x.units = 0 then x.sign && z else decide (x.units < 0) := by
    rw [F64.sign_add hx hzf, F64.sumSign, hzu, Int.add_zero, hzs]
  refine ⟨hlow, fun hm => F64.ext_sign_low ?_ hlow, fun hs => F64.ext_sign_low ?_ hlow⟩
  · have hu : x.units ≠ 0 := by
      intro h
      have := F64.natAbs_units x
      rw [h] at this
      exact hm this.symm
    rw [hsign, if_neg hu]
    unfold F64.units at hu ⊢
    cases hxs : x.sign
    · simp
    · simp [hxs] at hu ⊢
      omega
  · rw [hsign, hs]
    unfold F64.units
    simp [hs]

/-- Under REF the rising ramp starts at the midpoint, and the falling ramp ends there (R86): in value always, and bit
for bit unless the midpoint is -0.0. -/
theorem refRamp_at_midLevel {mid lvl : F64} (hm : mid.isFinite = true) (hd : (F64.sub lvl mid).isFinite = true)
    {k : Nat} (hk : 0 < k) :
    F64.eq (refRampUp 0 k mid lvl) mid = true ∧ F64.eq (refRampDown (k - 1) k mid lvl) mid = true ∧
      (mid ≠ F64.pack true 0 → refRampUp 0 k mid lvl = mid ∧ refRampDown (k - 1) k mid lvl = mid) := by
  have hup : refRampUp 0 k mid lvl = F64.add mid (F64.pack (F64.sub lvl mid).sign 0) := by
    rw [refRampUp, F64.ofNat_zero, F64.div_zero_ofNat hk, F64.mul_posZero hd]
  have hdown : refRampDown (k - 1) k mid lvl = F64.add mid (F64.pack (F64.sub lvl mid).sign 0) := by
    rw [refRampDown, show k - 1 - (k - 1) = 0 by omega, F64.ofNat_zero, F64.div_zero_ofNat hk, F64.mul_posZero hd]
  obtain ⟨h1, h2, h3⟩ := F64.add_zero hm (F64.sub lvl mid).sign
  rw [hup, hdown]
  generalize F64.add mid (F64.pack (F64.sub lvl mid).sign 0) = r at h1 h2 h3
  have hr : r.isFinite = true := by rw [F64.isFinite_iff, h1]; exact (F64.isFinite_iff _).1 hm
  have hbits : mid.sign = true → mid.mag = 0 → mid = F64.pack true 0 := by
    intro hs h0
    have hl : mid.low = 0 := by
      rw [F64.mag_eq] at h0
      by_contra hne
      have := F64.magOf_strictMono (Nat.pos_of_ne_zero hne)
      omega
    rw [← F64.pack_self mid, hs, hl]
  have heq : F64.eq r mid = true := by
    unfold F64.eq
    rw [F64.not_isNaN_of_finite hr, F64.not_isNaN_of_finite hm]
    simp only [Bool.not_false, Bool.true_and, decide_eq_true_eq]
    by_cases hz : mid.mag = 0
    · cases hs : mid.sign with
      | false => rw [h3 hs]
      | true =>
        have hl : mid.low = 0 := by rw [hbits hs hz]; exact F64.low_pack _ (by positivity)
        have hl1 : mid.toNat % 2 ^ 63 = 0 := hl
        have hl2 : r.toNat % 2 ^ 63 = 0 := h1.trans hl
        unfold F64.key
        rw [hl1, hl2]
        simp
    · rw [h2 hz]
  refine ⟨heq, heq, fun hne => ?_⟩
  have : r = mid := by
    by_cases hz : mid.mag = 0
    · cases hs : mid.sign with
      | false => exact h3 hs
      | true => exact absurd (hbits hs hz) hne
    · exact h2 hz
  exact ⟨this, this⟩

end Sys2Proof
end

