-- ==== Sys2Proof/Laws/Line.lean ====
section
/-! SUPPORT. The ramps of profiles 1 to 15 keep the limits of R85, whatever their free values are. -/

namespace Sys2Proof

/-! ## Rounding a signed value -/

theorem F64.low_nearest (num : Int) (den : Nat) : (F64.nearest num den).low = F64.roundMag num.natAbs den :=
  F64.low_pack _ (F64.roundMag_lt _ _)

theorem F64.sign_nearest (num : Int) (den : Nat) : (F64.nearest num den).sign = decide (num < 0) :=
  F64.sign_pack _ (F64.roundMag_lt _ _)

theorem F64.key_eq (x : F64) : x.key = if x.sign then -(x.low : Int) else (x.low : Int) := rfl

/-- A number is no NaN exactly if its encoding is at most that of infinity. -/
theorem F64.isNaN_iff (x : F64) : x.isNaN = true ↔ F64.infMag < x.low := by
  have := x.low_lt
  simp only [F64.isNaN, F64.expField_eq, F64.fraction_eq, F64.infMag, Bool.and_eq_true, beq_iff_eq, bne_iff_ne]
  omega

theorem F64.not_isNaN_nearest (num : Int) (den : Nat) : (F64.nearest num den).isNaN = false := by
  rw [Bool.eq_false_iff, ne_eq, F64.isNaN_iff, F64.low_nearest]
  exact not_lt.2 (F64.roundMag_le _ _)

theorem F64.le_iff_key {a b : F64} (ha : a.isNaN = false) (hb : b.isNaN = false) :
    F64.le a b = true ↔ a.key ≤ b.key := by simp [F64.le, ha, hb]

/-- Rounding is monotone, over both signs. -/
theorem F64.key_nearest_mono {a b : Int} {d d' : Nat} (hd : 0 < d) (hd' : 0 < d') (h : a * d' ≤ b * d) :
    (F64.nearest a d).key ≤ (F64.nearest b d').key := by
  have hd1 : (0 : Int) < d := by exact_mod_cast hd
  have hd2 : (0 : Int) < d' := by exact_mod_cast hd'
  rw [F64.key_eq, F64.key_eq, F64.sign_nearest, F64.sign_nearest, F64.low_nearest, F64.low_nearest]
  by_cases ha : a < 0 <;> by_cases hb : b < 0
  · simp only [ha, hb, decide_true, if_true]
    have hm : F64.roundMag b.natAbs d' ≤ F64.roundMag a.natAbs d := by
      refine F64.roundMag_mono hd' hd ?_
      zify
      rw [abs_of_neg ha, abs_of_neg hb]
      linarith
    omega
  · simp only [ha, hb, decide_true, decide_false, if_true]
    simp
  · have h1 : 0 ≤ a * d' := mul_nonneg (not_lt.1 ha) hd2.le
    have h2 : b * d < 0 := mul_neg_of_neg_of_pos hb hd1
    omega
  · simp only [ha, hb, decide_false]
    have hm : F64.roundMag a.natAbs d ≤ F64.roundMag b.natAbs d' := by
      refine F64.roundMag_mono hd hd' ?_
      zify
      rw [abs_of_nonneg (not_lt.1 ha), abs_of_nonneg (not_lt.1 hb)]
      linarith
    simpa using hm

theorem F64.mag_eq_zero {x : F64} (h : x.mag = 0) : x.low = 0 := by
  rw [F64.mag_eq] at h
  by_contra hne
  have := F64.magOf_strictMono (Nat.pos_of_ne_zero hne)
  omega

/-- Rounding the value of a finite number, over any denominator, gives the number's place. -/
theorem F64.key_nearest_units {x : F64} (hx : x.isFinite = true) {d : Nat} (hd : 0 < d) :
    (F64.nearest (x.units * d) d).key = x.key := by
  have hlow : F64.roundMag (x.units * d).natAbs d = x.low := by
    rw [Int.natAbs_mul, Int.natAbs_natCast, F64.natAbs_units, F64.mag_eq]
    exact F64.roundMag_magOf (le_of_lt ((F64.isFinite_iff x).1 hx)) hd
  have hd1 : (0 : Int) < d := by exact_mod_cast hd
  rw [F64.key_eq, F64.key_eq, F64.sign_nearest, F64.low_nearest, hlow]
  unfold F64.units
  cases hs : x.sign with
  | false =>
    have : ¬ ((x.mag : Int) * d < 0) := not_lt.2 (by positivity)
    simp [this]
  | true =>
    by_cases h0 : x.mag = 0
    · simp [h0, F64.mag_eq_zero h0]
    · have : -(x.mag : Int) * d < 0 := mul_neg_of_neg_of_pos (by omega) hd1
      simp only [if_true, this, decide_true]

/-! ## The error of rounding -/

/-- Rounding to the nearest integer moves by at most one unit. -/
theorem F64.nearestEven_error (n : Nat) {d : Nat} (hd : 0 < d) :
    ((F64.nearestEven n d * d : Nat) - n : Int).natAbs ≤ d := by
  have e := Nat.div_add_mod n d
  have r := Nat.mod_lt n hd
  have c : n / d * d = d * (n / d) := Nat.mul_comm _ _
  have c' : (n / d + 1) * d = d * (n / d) + d := by ring
  unfold F64.nearestEven
  dsimp only
  split_ifs <;> omega

/-- A finite number's scale is at most its exponent. -/
theorem F64.scaleOf_mag (x : F64) : F64.scaleOf x.mag 1 ≤ x.expField - 1 := by
  rw [F64.scaleOf, Nat.div_one]
  have hf := x.fraction_lt
  rcases Nat.eq_zero_or_pos x.mag with h0 | h0
  · rw [h0]
    simp
  · have : Nat.log2 x.mag < 53 + (x.expField - 1) := by
      rw [Nat.log2_lt (by omega), pow_add]
      unfold F64.mag
      split
      · exact lt_of_lt_of_le (lt_trans hf (by norm_num)) (Nat.le_mul_of_pos_right _ (by positivity))
      · exact Nat.mul_lt_mul_of_pos_right (by omega) (by positivity)
    omega

/-- A value no greater than a finite number is rounded with an error of at most that number's unit in the last
place. -/
theorem F64.units_nearest_error {num : Int} {d : Nat} (hd : 0 < d) {x : F64} (hx : x.isFinite = true)
    (h : num.natAbs ≤ x.mag * d) : ((F64.nearest num d).units * d - num).natAbs ≤ x.ulp * d := by
  have hle : num.natAbs * 1 ≤ x.mag * d := by rwa [mul_one]
  have hround : F64.roundMag num.natAbs d < F64.infMag :=
    lt_of_le_of_lt (F64.roundMag_mono hd one_pos hle) (F64.roundMag_mag hx ▸ (F64.isFinite_iff x).1 hx)
  have hub : F64.roundMag num.natAbs d = F64.roundUnbounded num.natAbs d := by
    rw [F64.roundMag_eq] at hround ⊢
    omega
  have hs : F64.scaleOf num.natAbs d ≤ x.expField - 1 := le_trans (F64.scaleOf_mono one_pos hle) x.scaleOf_mag
  have herr := F64.nearestEven_error num.natAbs (d := d * 2 ^ F64.scaleOf num.natAbs d) (by positivity)
  have hval : (F64.nearest num d).mag * d =
      F64.nearestEven num.natAbs (d * 2 ^ F64.scaleOf num.natAbs d) * (d * 2 ^ F64.scaleOf num.natAbs d) := by
    rw [F64.mag_eq, F64.low_nearest, hub, F64.magOf_roundUnbounded]
    ring
  rw [← hval] at herr
  have hulp : d * 2 ^ F64.scaleOf num.natAbs d ≤ x.ulp * d := by
    rw [Nat.mul_comm d]
    exact Nat.mul_le_mul_right _ (Nat.pow_le_pow_right (by norm_num) hs)
  refine le_trans ?_ (le_trans herr hulp)
  unfold F64.units
  rw [F64.sign_nearest]
  by_cases hn : num < 0
  · simp only [hn, decide_true, if_true]
    have : -((F64.nearest num d).mag : Int) * d = -(((F64.nearest num d).mag * d : Nat) : Int) := by push_cast; ring
    rw [this]
    omega
  · simp only [hn, decide_false]
    have : ((F64.nearest num d).mag : Int) * d = (((F64.nearest num d).mag * d : Nat) : Int) := by push_cast; ring
    simp only [Bool.false_eq_true, if_false, this]
    omega

namespace Machine

/-! ## The line -/

theorem lineDen_pos (l : Config.RampLine) (n : Nat) : 0 < lineDen l n := by unfold lineDen; omega

theorem lineNum_mono (l : Config.RampLine) {i j : Nat} (h : i ≤ j) : lineNum l i ≤ lineNum l j :=
  Nat.add_le_add_left (Nat.mul_le_mul_left _ h) _

theorem lineNum_le_lineDen (l : Config.RampLine) {n j : Nat} (h : j < n) : lineNum l j ≤ lineDen l n := by
  have := lineNum_mono l (show j ≤ n - 1 by omega)
  unfold lineDen
  omega

/-- The exact values go from the midpoint toward the level and not beyond it. -/
theorem lineUnits_order (l : Config.RampLine) {n i j : Nat} (hij : i ≤ j) (hj : j < n) (mid lvl : F64) :
    (mid.units ≤ lvl.units → mid.units * lineDen l n ≤ lineUnits l n i mid lvl ∧
      lineUnits l n i mid lvl ≤ lineUnits l n j mid lvl ∧ lineUnits l n j mid lvl ≤ lvl.units * lineDen l n) ∧
    (lvl.units ≤ mid.units → lvl.units * lineDen l n ≤ lineUnits l n j mid lvl ∧
      lineUnits l n j mid lvl ≤ lineUnits l n i mid lvl ∧ lineUnits l n i mid lvl ≤ mid.units * lineDen l n) := by
  have h1 : (lineNum l i : Int) ≤ lineNum l j := by exact_mod_cast lineNum_mono l hij
  have h2 : (lineNum l j : Int) ≤ lineDen l n := by exact_mod_cast lineNum_le_lineDen l hj
  have h0 : (0 : Int) ≤ lineNum l i := by positivity
  unfold lineUnits
  generalize (lineNum l i : Int) = a at *
  generalize (lineNum l j : Int) = b at *
  generalize (lineDen l n : Int) = d at *
  constructor
  · intro h
    refine ⟨?_, ?_, ?_⟩ <;> nlinarith
  · intro h
    refine ⟨?_, ?_, ?_⟩ <;> nlinarith

/-- Rounded once, the line keeps the limits of R85. -/
theorem keepsLimits_lineSample (l : Config.RampLine) (n : Nat) {mid lvl : F64} (hm : mid.isFinite = true)
    (hl : lvl.isFinite = true) : keepsLimits l n mid lvl (lineSample l n mid lvl) = true := by
  have hd := lineDen_pos l n
  have hd1 : (0 : Int) < lineDen l n := by exact_mod_cast hd
  have hs : ∀ j, lineSample l n mid lvl j = F64.nearest (lineUnits l n j mid lvl) (lineDen l n) := fun j => by
    rw [lineSample, hm, hl, Bool.and_self, if_pos rfl]
  have nm := F64.not_isNaN_of_finite hm
  have nl := F64.not_isNaN_of_finite hl
  have mono : ∀ a b : Int, a ≤ b → (F64.nearest a (lineDen l n)).key ≤ (F64.nearest b (lineDen l n)).key :=
    fun a b h => F64.key_nearest_mono hd hd (mul_le_mul_of_nonneg_right h hd1.le)
  have km := F64.key_nearest_units hm hd
  have kl := F64.key_nearest_units hl hd
  have hle : ∀ i j, i ≤ j → j < n →
      between (lineSample l n mid lvl i) lvl (lineSample l n mid lvl j) = true ∧
      between mid lvl (lineSample l n mid lvl j) = true := by
    intro i j hij hj
    have ni := F64.not_isNaN_nearest (lineUnits l n i mid lvl) (lineDen l n)
    have nj := F64.not_isNaN_nearest (lineUnits l n j mid lvl) (lineDen l n)
    obtain ⟨h1, h2⟩ := lineUnits_order l hij hj mid lvl
    simp only [between, hs, Bool.or_eq_true, Bool.and_eq_true, F64.le_iff_key, nm, nl, ni, nj]
    rcases le_total mid.units lvl.units with h | h
    · obtain ⟨a, b, c⟩ := h1 h
      have a' := mono _ _ (le_trans a b)
      have b' := mono _ _ b
      have c' := mono _ _ c
      rw [km] at a'
      rw [kl] at c'
      exact ⟨.inl ⟨b', c'⟩, .inl ⟨a', c'⟩⟩
    · obtain ⟨a, b, c⟩ := h2 h
      have a' := mono _ _ a
      have b' := mono _ _ b
      have c' := mono _ _ (le_trans b c)
      rw [km] at c'
      rw [kl] at a'
      exact ⟨.inr ⟨a', b'⟩, .inr ⟨a', c'⟩⟩
  have herr : ∀ j < n, onLine l n j mid lvl (lineSample l n mid lvl j) = true := by
    intro j hj
    obtain ⟨h1, h2⟩ := lineUnits_order l (le_refl j) hj mid lvl
    have key : (lineUnits l n j mid lvl).natAbs ≤ mid.mag * lineDen l n ∨
        (lineUnits l n j mid lvl).natAbs ≤ lvl.mag * lineDen l n := by
      have em : (mid.units * lineDen l n).natAbs = mid.mag * lineDen l n := by
        rw [Int.natAbs_mul, Int.natAbs_natCast, F64.natAbs_units]
      have el : (lvl.units * lineDen l n).natAbs = lvl.mag * lineDen l n := by
        rw [Int.natAbs_mul, Int.natAbs_natCast, F64.natAbs_units]
      rw [← em, ← el]
      rcases le_total mid.units lvl.units with h | h
      · have := h1 h
        omega
      · have := h2 h
        omega
    have bound : ∀ x : F64, x.ulp ≤ max mid.ulp lvl.ulp → x.ulp * lineDen l n ≤ rampSlack n mid lvl * lineDen l n :=
      fun x hx => Nat.mul_le_mul_right _ (le_trans hx (Nat.le_mul_of_pos_left _ (by omega)))
    rw [onLine, decide_eq_true_eq, hs]
    rcases key with h | h
    · exact le_trans (F64.units_nearest_error hd hm h) (bound mid (le_max_left _ _))
    · exact le_trans (F64.units_nearest_error hd hl h) (bound lvl (le_max_right _ _))
  rw [keepsLimits, List.all_eq_true]
  intro j hj
  have hj := List.mem_range.1 hj
  rw [(hle j j (le_refl j) hj).2, herr j hj, Bool.true_and, Bool.and_true, Bool.or_eq_true, decide_eq_true_eq]
  rcases Nat.lt_or_ge (j + 1) n with h | h
  · exact .inr (hle j (j + 1) (by omega) h).1
  · exact .inl (by omega)

/-- What `keepsLimits` says of each sample: range, direction, and the line met but for rounding. -/
theorem keepsLimits_apply {l : Config.RampLine} {n : Nat} {mid lvl : F64} {f : Nat → F64}
    (h : keepsLimits l n mid lvl f = true) {j : Nat} (hj : j < n) :
    between mid lvl (f j) = true ∧ (j + 1 < n → between (f j) lvl (f (j + 1)) = true) ∧
      ((f j).units * lineDen l n - lineUnits l n j mid lvl).natAbs ≤ rampSlack n mid lvl * lineDen l n := by
  have := List.all_eq_true.1 h j (List.mem_range.2 hj)
  simp only [Bool.and_eq_true, Bool.or_eq_true, decide_eq_true_eq, onLine] at this
  exact ⟨this.1.1, fun h2 => this.1.2.resolve_left (by omega), this.2⟩

/-- Whatever the free values are, a profile's rising ramp keeps the limits of R85 along the profile's line. -/
theorem keepsLimits_freeRampUp (profile : BitVec 4) (n : Nat) {mid lvl : F64} (hm : mid.isFinite = true)
    (hl : lvl.isFinite = true) :
    keepsLimits (Config.rampLine profile n mid lvl) n mid lvl (freeRampUp profile n mid lvl) = true := by
  by_cases h : keepsLimits (Config.rampLine profile n mid lvl) n mid lvl
      (fun i => Config.rampSample profile i n mid lvl) = true
  · have : freeRampUp profile n mid lvl = fun i => Config.rampSample profile i n mid lvl := by
      funext j
      rw [freeRampUp, if_pos h]
    rwa [this]
  · have : freeRampUp profile n mid lvl = lineSample (Config.rampLine profile n mid lvl) n mid lvl := by
      funext j
      rw [freeRampUp, if_neg h]
    rw [this]
    exact keepsLimits_lineSample _ n hm hl

end Machine

end Sys2Proof
end

