-- ==== Sys2Proof/Laws/PerInstr.lean ====
section
/-! SUPPORT. A statement about every command as syntax: its encoding leaves the reserved bits 0 (R57). -/

namespace Sys2Proof.Laws.ReservedBitsZero

/-- Bits 31:16 of the command word of a well-formed command are 0, and its opcode is one of R58. -/
def Statement (i : Instr) : Prop :=
  i.WellFormed → rsvdField (encode i) = 0 ∧ opcField (encode i) = opcodeOf i

/-- The fields of an encoding do not depend on the slot, whatever it is. -/
theorem fields (a o : BitVec 8) :
    rsvdField ((0 : BitVec 16) ++ a ++ o) = 0 ∧ opcField ((0 : BitVec 16) ++ a ++ o) = o := by
  constructor <;> apply BitVec.eq_of_getLsbD_eq <;> intro j hj
  · simp only [rsvdField, BitVec.getLsbD_extractLsb', BitVec.getLsbD_append]
    rw [if_neg (by omega), if_neg (by omega)]
    simp
  · simp only [opcField, BitVec.getLsbD_extractLsb', BitVec.getLsbD_append]
    rw [if_pos (by omega)]
    simp [hj]

theorem config : Statement .config := fun _ => fields _ _

theorem receive : Statement .receive := fun _ => fields _ _

theorem emit : Statement .emit := fun _ => fields _ _

theorem connect (c : Nat) : Statement (.connect c) := fun _ => fields _ _

theorem disconnect (c : Nat) : Statement (.disconnect c) := fun _ => fields _ _

end Sys2Proof.Laws.ReservedBitsZero
end

