-- ==== Sys2Proof/Tests/Slice0.lean ====
section
/-! SUPPORT. Tests on the spec's own vectors (95_test_vectors.md), and for every statement with hypotheses a witness
that meets all of them together. -/

namespace Sys2Proof.Tests

open Sys2Proof Sys2Proof.Machine Sys2Proof.Safety

-- One proof after another: so many kernel evaluations at once would take a thread each.
set_option Elab.async false

/-! ## Helpers -/

/-- 0.0, 0.5, 1.0, -1.0 as encodings. -/
def zero : F64 := 0x0000000000000000

/-- 0.5. -/
def half : F64 := 0x3FE0000000000000

/-- 1.0. -/
def one : F64 := 0x3FF0000000000000

/-- -1.0. -/
def minusOne : F64 := 0xBFF0000000000000

/-- Right after reset, with the four staged parameters written. -/
def staged (sch : Word) (amin amax : F64) (spb : Word) : State :=
  { State.reset with
    sScheme := sch
    sSpb := spb
    sAminLo := amin.extractLsb' 0 32
    sAminHi := amin.extractLsb' 32 32
    sAmaxLo := amax.extractLsb' 0 32
    sAmaxHi := amax.extractLsb' 32 32 }

/-- Configured, slot 0 connected, `n` input bits, BITBUF word 0 written. -/
def configured (sch : Word) (amin amax : F64) (spb n bits : Word) : State :=
  { commitConfig (staged sch amin amax spb) with
    bitlen := n
    consumers := 1
    mem := Memory.write [] 0x1000 (wordBytes bits) }

/-- The same under P_NRZT_BOUNDARY = RAMP. -/
def ramped (s : State) : State := { s with params := { s.params with boundary := .ramp } }

/-- `s` with the input `x` next. -/
def facing (s : State) (x : Input) : State := { s with pending := [x] }

/-- After a RECEIVE of the one bit 1 under NRZ, S = 1, with slot 0 connected. -/
def received : State := rxCommit (configured 0 zero one 1 1 1) [one]

/-- STATUS after an outcome. -/
def statusOf : Host.Outcome State Fault Refusal → Option Word
  | .next s => some (statusWord s)
  | _ => none

/-- The stored output after an outcome. -/
def outputOf : Host.Outcome State Fault Refusal → List F64
  | .next s => storedOutput s
  | _ => []

/-- The output trace after an outcome. -/
def traceOf : Host.Outcome State Fault Refusal → List Emission
  | .next s => s.trace
  | _ => []

/-- CONSUMERS after an outcome. -/
def consumersOf : Host.Outcome State Fault Refusal → Option Word
  | .next s => some (consumersReg s)
  | _ => none

/-- The values that host reads returned, after an outcome. -/
def readsOf : Host.Outcome State Fault Refusal → List Word
  | .next s => s.reads.map HostRead.value
  | _ => []

/-- The outcome is a next state. -/
def isNext : Host.Outcome State Fault Refusal → Bool
  | .next _ => true
  | _ => false

/-- The outcome is a refusal. -/
def isRefused : Host.Outcome State Fault Refusal → Bool
  | .refused _ => true
  | _ => false

/-- The outcome is a fault. -/
def isFault : Host.Outcome State Fault Refusal → Bool
  | .fault _ => true
  | _ => false

theorem exists_next {o : Host.Outcome State Fault Refusal} (h : isNext o = true) : ∃ t, o = .next t := by
  cases o with
  | next t => exact ⟨t, rfl⟩
  | fault r => cases h
  | refused r => cases h

/-! ## WellFormed: a slot beyond its 8-bit field -/

theorem test_wellFormed_refuses :
    (Instr.connect 256).wellFormed = false ∧ (Instr.disconnect 256).wellFormed = false ∧
    (Instr.connect 255).wellFormed = true ∧ (Instr.disconnect 255).wellFormed = true ∧
    Instr.config.wellFormed = true ∧ Instr.receive.wellFormed = true ∧ Instr.emit.wellFormed = true := by decide

/-! ## Decoding: words written bit by bit as RSVD ++ ARG ++ OPC (R57, R58) -/

theorem test_decode_config : decode (0b0000000000000000#16 ++ 0b00000000#8 ++ 0b00000001#8) = .ok .config := by rfl

theorem test_decode_receive : decode (0b0000000000000000#16 ++ 0b00000000#8 ++ 0b00000010#8) = .ok .receive := by rfl

theorem test_decode_emit : decode (0b0000000000000000#16 ++ 0b00000000#8 ++ 0b00000011#8) = .ok .emit := by rfl

theorem test_decode_connect :
    decode (0b0000000000000000#16 ++ 0b10000001#8 ++ 0b00000100#8) = .ok (.connect 129) := by rfl

theorem test_decode_disconnect :
    decode (0b0000000000000000#16 ++ 0b00001001#8 ++ 0b00000101#8) = .ok (.disconnect 9) := by rfl

/-- DE1 to DE5 of 95_test_vectors.md. -/
theorem test_decode_illegal :
    decode 0x00000000 = .error .undefinedOpcode ∧ decode 0x00000006 = .error .undefinedOpcode ∧
    decode 0x000000FF = .error .undefinedOpcode ∧ decode 0x00010001 = .error .reservedBits ∧
    decode 0x00000101 = .error .argumentNotZero := ⟨rfl, rfl, rfl, rfl, rfl⟩

theorem test_decodeTableWord :
    decodeTableWord 32 0x00000204 = some (.connect 2) ∧ decodeTableWord 32 0 = none := ⟨rfl, rfl⟩

/-! ## Commands: vectors of 95_test_vectors.md sections 2.1 to 2.7, as STATUS after the CMD write -/

/-- CF1, CF8, CF12, CF13. -/
theorem test_config_accepts :
    statusOf (performCommand (staged 0 zero one 30) 1) = some 0x00010001 ∧
    statusOf (performCommand (staged 0 0xFFEE42D130773B76 0x7FEE42D130773B76 3) 1) = some 0x00010001 ∧
    statusOf (performCommand (staged 0 zero one 0x7FFFFFFF) 1) = some 0x00010001 ∧
    statusOf (performCommand (staged 7 zero one 3) 1) = some 0x00010001 := by decide +kernel

/-- CF2, CF3, CF4, CF5, CF6, CF7 (1.0e308 and 1.7e308), CF9, CF10, CF11. -/
theorem test_config_rejects :
    statusOf (performCommand (staged 0 one one 3) 1) = some 0x00010300 ∧
    statusOf (performCommand (staged 0 0x4000000000000000 one 0) 1) = some 0x00010300 ∧
    statusOf (performCommand (staged 0 0x8000000000000000 zero 3) 1) = some 0x00010300 ∧
    statusOf (performCommand (staged 0 0x7FF8000000000000 one 3) 1) = some 0x00010300 ∧
    statusOf (performCommand (staged 0 zero 0x7FF0000000000000 3) 1) = some 0x00010300 ∧
    statusOf (performCommand (staged 0 0x7FE1CCF385EBC8A0 0x7FEE42D130773B76 3) 1) = some 0x00010300 ∧
    statusOf (performCommand (staged 0 zero one 0) 1) = some 0x00010400 ∧
    statusOf (performCommand (staged 0 zero one 0x80000000) 1) = some 0x00010400 ∧
    statusOf (performCommand (staged 0 zero one 0xFFFFFFFF) 1) = some 0x00010400 := by decide +kernel

/-- NZ3, RZ8, NT5, NT11, NT14, NT16. -/
theorem test_receive_waveforms :
    outputOf (performCommand (configured 0 0x8000000000000000 0x4004000000000000 1 3 3) 2) =
      [0x4004000000000000, 0x4004000000000000, 0x8000000000000000] ∧
    outputOf (performCommand (configured 2 0xC008000000000000 minusOne 3 1 1) 2) = [zero, minusOne, zero] ∧
    outputOf (performCommand (configured 1 minusOne one 4 2 1) 2) =
      [one, one, half, zero, zero, minusOne, minusOne, minusOne] ∧
    outputOf (performCommand (configured 1 zero one 5 2 1) 2) =
      [one, one, 0x3FEAAAAAAAAAAAAA, 0x3FE5555555555555, half, half, zero, zero, zero, zero] ∧
    outputOf (performCommand (ramped (configured 1 zero one 7 1 1)) 2) =
      [half, 0x3FE8000000000000, one, one, 0x3FEAAAAAAAAAAAAA, 0x3FE5555555555555, half] ∧
    outputOf (performCommand (configured 1 0xC014000000000000 minusOne 3 2 2) 2) =
      [0xC014000000000000, 0xC014000000000000, 0xC008000000000000, 0xC008000000000000, minusOne, minusOne] := by
  decide +kernel

/-- RV1 to RV5, RV7 (with N = 33 only word 0 is written), RV8. -/
theorem test_receive_checks :
    statusOf (performCommand State.reset 2) = some 0x00020600 ∧
    statusOf (performCommand (configured 3 zero one 1 0 0) 2) = some 0x00020101 ∧
    statusOf (performCommand (configured 3 zero one 1 2000 0) 2) = some 0x00020201 ∧
    statusOf (performCommand (configured 0 zero one 1 1025 0) 2) = some 0x00020501 ∧
    statusOf (performCommand (configured 0 zero one 8193 2 0) 2) = some 0x00020501 ∧
    isFault (performCommand (configured 0 zero one 2 33 0) 2) = true ∧
    statusOf (performCommand (configured 0 zero one 0x7FFFFFFF 33 0) 2) = some 0x00020501 := by decide +kernel

/-- R85: along the line from 0.0 to 1.0 in quarters, the quarters keep the limits; a step keeps range and direction but
is not linear, on this line or on the one that ends at the level. -/
theorem test_ramp_limits :
    keepsLimits { start := 0, slope := 0, rest := 1 } 4 zero one
      (fun j => [zero, 0x3FD0000000000000, half, 0x3FE8000000000000][j]?.getD one) = true ∧
    keepsLimits { start := 0, slope := 0, rest := 1 } 4 zero one
      (fun j => [zero, zero, one, one][j]?.getD one) = false ∧
    keepsLimits { start := 1, slope := 0, rest := 0 } 4 zero one
      (fun j => [zero, zero, one, one][j]?.getD one) = false := by decide +kernel

/-- EM2 and EM3, for the one sample of `received`. -/
theorem test_emit_delivers :
    statusOf (performCommand received 3) = some 0x00030003 ∧
    traceOf (performCommand received 3) = [{ mask := 1, samples := [one] }, { mask := 1, samples := [one] }] ∧
    traceOf (performCommand { received with consumers := 0 } 3) = [{ mask := 1, samples := [one] }] := by decide +kernel

/-- EM1. -/
theorem test_emit_without_output : statusOf (performCommand State.reset 3) = some 0x00030100 := by decide +kernel

/-- CN2, CN3. -/
theorem test_connect_registers :
    consumersOf (performCommand { State.reset with consumers := 1 } 0x204) = some 5 ∧
    consumersOf (performCommand { State.reset with consumers := 5 } 0x204) = some 5 := by decide +kernel

/-- CN4, CN5. -/
theorem test_connect_invalid :
    statusOf (performCommand { State.reset with consumers := 5 } 0x404) = some 0x00040800 ∧
    statusOf (performCommand { State.reset with consumers := 5 } 0xFF04) = some 0x00040800 := by decide +kernel

/-- DC1, DC2. -/
theorem test_disconnect_deregisters :
    consumersOf (performCommand { State.reset with consumers := 5 } 0x005) = some 4 ∧
    consumersOf (performCommand { State.reset with consumers := 4 } 0x105) = some 4 := by decide +kernel

/-- DC3. -/
theorem test_disconnect_invalid :
    statusOf (performCommand { State.reset with consumers := 4 } 0x905) = some 0x00050800 := by decide +kernel

/-! ## Host accesses: vectors of section 2.8 -/

/-- HA5 to HA11. -/
theorem test_host_refusals :
    isRefused (hostAccess State.reset (.read 32 0x000)) = true ∧
    isRefused (hostAccess State.reset (.write 32 0x004 0)) = true ∧
    isRefused (hostAccess State.reset (.read 32 0x006)) = true ∧
    isRefused (hostAccess State.reset (.read 16 0x004)) = true ∧
    isRefused (hostAccess State.reset (.read 32 0x050)) = true ∧
    isRefused (hostAccess State.reset (.write 32 0x10000 0)) = true ∧
    isRefused (hostAccess State.reset (.read 32 0x1080)) = true := by decide +kernel

/-- HA1, HA2, HA3, HA4, HA14 (word 0 holds 5), and P1 line 15 (the high half of OUTBUF[0]). -/
theorem test_host_reads :
    readsOf (hostAccess State.reset (.read 32 0x044)) = [0x400] ∧
    readsOf (hostAccess State.reset (.read 32 0x048)) = [0x4000] ∧
    readsOf (hostAccess State.reset (.read 32 0x04C)) = [0x4] ∧
    readsOf (hostAccess (ramped State.reset) (.read 32 0x04C)) = [0x104] ∧
    readsOf (hostAccess (configured 0 zero one 1 0 5) (.read 32 0x1000)) = [5] ∧
    readsOf (hostAccess received (.read 32 0x10004)) = [0x3FF00000] := by decide +kernel

/-- The command placed by `withFetchWord` is the one the next step performs, as the first after reset. -/
theorem test_withFetchWord :
    statusOf (step (State.reset.withFetchWord 32 0x00000304)) = some 0x00040000 ∧
    statusOf (step (State.reset.withFetchWord 32 0x00000002)) = some 0x00020600 := by decide +kernel

/-! ## Witnesses: for each statement with hypotheses, a state and operands that meet all of them -/

theorem witness_DecodeInvertsEncode : (Instr.connect 255).WellFormed ∧ (Instr.disconnect 0).WellFormed := by decide

theorem witness_EncodeInvertsDecode :
    decode 0x0000FF04 = .ok (.connect 255) ∧ decode 0x00000003 = .ok .emit := ⟨rfl, rfl⟩

/-- Each way to be illegal at its least value, the greatest legal word, and a legal word of a slot that does not
exist: P_MAX_CONSUMERS itself. -/
theorem witness_IllegalWordsRaiseIllegalCommand :
    IllegalWord 0x00010001 ∧ IllegalWord 0x00000000 ∧ IllegalWord 0x00000006 ∧ IllegalWord 0x00000103 ∧
    ¬IllegalWord 0x0000FF05 ∧ ¬IllegalWord 0x00000404 ∧ 4 ≤ (0x00000404 : Word).toNat % 256 ∧
    State.reset.params.maxConsumers ≤ (0x00000404 : Word).toNat / 256 := by unfold IllegalWord; decide

theorem witness_StepPerformsDecodedCommand :
    (facing State.reset (commandAccess State.reset.params 1)).faultMark = false ∧
    (facing State.reset (commandAccess State.reset.params 1)).pending =
      [.access (.write 32 State.reset.params.base 1)] ∧
    decode 1 = .ok .config ∧ decode 6 = .error .undefinedOpcode := ⟨rfl, rfl, rfl, rfl⟩

/-- Staged parameters at both ends of the range of S_SPB. -/
theorem witness_ConfigCommitsStaging :
    StagedValid (staged 0 zero one 1) ∧ StagedValid (staged 9 minusOne one 0x7FFFFFFF) ∧
    ¬StagedValid (staged 0 zero one 0) := by
  refine ⟨?_, ?_, fun h => absurd h.spb_pos (by decide)⟩ <;> constructor <;> decide +kernel

/-- Amax = Amin fails the check, 0.0 and 1.0 pass it. -/
theorem witness_ConfigChecksAmplitudes :
    F64.lt (stagedAmin (staged 0 one one 1)) (stagedAmax (staged 0 one one 1)) = false ∧
    (stagedAmin (staged 0 zero one 1)).isFinite = true ∧ (stagedAmax (staged 0 zero one 1)).isFinite = true ∧
    F64.lt (stagedAmin (staged 0 zero one 1)) (stagedAmax (staged 0 zero one 1)) = true ∧
    F64.isFinite (F64.add (stagedAmax (staged 0 zero one 1)) (stagedAmin (staged 0 zero one 1))) = true := by
  decide +kernel

/-- The same amplitudes with S_SPB at 0, 2^31, 1 and 2^31 - 1. -/
theorem witness_ConfigChecksSamplesPerBit :
    (stagedAmin (staged 0 zero one 0)).isFinite = true ∧ (stagedAmax (staged 0 zero one 0)).isFinite = true ∧
    F64.lt (stagedAmin (staged 0 zero one 0)) (stagedAmax (staged 0 zero one 0)) = true ∧
    F64.isFinite (F64.add (stagedAmax (staged 0 zero one 0)) (stagedAmin (staged 0 zero one 0))) = true ∧
    ¬(1 ≤ (staged 0 zero one 0).sSpb.toNat) ∧ ¬((staged 0 zero one 0x80000000).sSpb.toNat ≤ 2 ^ 31 - 1) ∧
    (staged 0 zero one 0x7FFFFFFF).sSpb.toNat ≤ 2 ^ 31 - 1 ∧ 1 ≤ (staged 0 zero one 1).sSpb.toNat := by decide +kernel

/-- The premises of the five clauses, each at a boundary: reset; N = 0; scheme 3; N = P_MAX_BITS + 1; N*S =
P_MAX_SAMPLES with a next state. -/
theorem witness_ReceiveValidationOrder :
    State.reset.cfgValid = false ∧
    (let s := configured 3 zero one 1 0 0; s.cfgValid = true ∧ s.bitlen.toNat = 0) ∧
    (let s := configured 3 zero one 1 1 0; s.cfgValid = true ∧ s.bitlen.toNat ≠ 0 ∧ 3 ≤ s.aScheme.toNat) ∧
    (let s := configured 2 zero one 1 1025 0; s.cfgValid = true ∧ s.bitlen.toNat ≠ 0 ∧ s.aScheme.toNat ≤ 2 ∧
      s.params.maxBits < s.bitlen.toNat) ∧
    (let s := configured 2 zero one 8193 2 0; s.cfgValid = true ∧ s.bitlen.toNat ≠ 0 ∧ s.aScheme.toNat ≤ 2 ∧
      s.params.maxSamples < s.bitlen.toNat * s.aSpb.toNat) ∧
    (let s := configured 2 zero one 16384 1 0; s.cfgValid = true ∧ s.bitlen.toNat ≠ 0 ∧ s.aScheme.toNat ≤ 2 ∧
      s.bitlen.toNat ≤ s.params.maxBits ∧ s.bitlen.toNat * s.aSpb.toNat ≤ s.params.maxSamples) ∧
    ∃ t, exec .receive (configured 2 zero one 1 1 0) = .next t := by
  refine ⟨by decide, by decide, by decide, by decide, by decide, by decide, exists_next (by decide +kernel)⟩

/-- N = 33 with one word written: bit 32 is not; N = 32: every bit is. -/
theorem witness_ReceiveFaultsOnUnwrittenInput :
    (let s := configured 0 zero one 2 33 0
     s.cfgValid = true ∧ 0 < s.bitlen.toNat ∧ s.aScheme.toNat ≤ 2 ∧ s.bitlen.toNat ≤ s.params.maxBits ∧
      s.bitlen.toNat * s.aSpb.toNat ≤ s.params.maxSamples ∧ bitRead s.mem 32 = none) ∧
    (let s := configured 0 zero one 2 32 0
     s.cfgValid = true ∧ 0 < s.bitlen.toNat ∧ s.aScheme.toNat ≤ 2 ∧ s.bitlen.toNat ≤ s.params.maxBits ∧
      s.bitlen.toNat * s.aSpb.toNat ≤ s.params.maxSamples ∧ ∀ i < 32, bitRead s.mem i ≠ none) := by decide +kernel

/-- Each scheme with input bits 1 and 0, and a RECEIVE that ends in an error. -/
theorem witness_ReceiveCommitsOutput :
    Receivable (configured 0 zero one 2 2 1) .nrz [true, false] ∧
    Receivable (configured 1 zero one 4 2 1) .nrzt [true, false] ∧
    Receivable (configured 2 zero one 3 2 1) .rz [true, false] ∧
    ∃ t, exec .receive State.reset = .next t ∧ t.errcode ≠ 0 := by
  refine ⟨?_, ?_, ?_, ⟨_, rfl, by decide⟩⟩ <;>
    exact ⟨by decide, by decide, by unfold SchemeCode; decide, by decide, by decide, by decide, by decide +kernel⟩

theorem witness_ReceiveFrame :
    (∃ t, exec .receive (configured 1 zero one 4 2 1) = .next t) ∧ ∃ t, exec .receive State.reset = .next t :=
  ⟨exists_next (by decide +kernel), exists_next (by decide +kernel)⟩

theorem witness_OutputHoldsWavesInOrder : [true, false][1]? = some false ∧ [true, false][0]? = some true := by decide

theorem witness_SegmentSizes : 1 ≤ 1 ∧ 1 ≤ 2 ^ 31 - 1 := by decide

/-- The invariant holds of a state a RECEIVE leaves. -/
theorem received_inv : StateInv received where
  params_legal := by decide
  memory_wf := by decide +kernel
  memory_mapped := by
    have h : ∀ c ∈ received.mem, (4096 ≤ c.1 ∧ c.1 < 4224) ∨ (65536 ≤ c.1 ∧ c.1 < 196608) := by decide +kernel
    exact h
  words_whole := by
    have h : ∀ d < 128, (Memory.read received.mem (4096 + d)).isSome =
        (Memory.read received.mem ((4096 + d) / 4 * 4)).isSome := by decide +kernel
    intro a h1 h2
    have h1 : 4096 ≤ a := h1
    have h2 : a < 4096 + 128 := h2
    have hd := h (a - 4096) (by omega)
    rw [Nat.add_sub_cancel' h1] at hd
    exact hd
  active_valid := fun _ => by constructor <;> decide +kernel
  errcode_le := by decide
  outlen_le := by decide
  outlen_pos := by decide
  output_stored := by
    have h : ∀ d < 8, (Memory.read received.mem (65536 + d)).isSome = true := by decide +kernel
    intro a h1 h2
    have h1 : 65536 ≤ a := h1
    have h2 : a < 65536 + 8 := h2
    have hd := h (a - 65536) (by omega)
    rw [Nat.add_sub_cancel' h1] at hd
    exact hd
  consumers_legal := by decide
  trace_legal := by decide
  unmarked := rfl

theorem witness_MidpointIsFinite : StateInv received ∧ received.cfgValid = true := ⟨received_inv, rfl⟩

theorem witness_NrzSamples : [true, false][1]? = some false ∧ 29 < 30 := by decide

/-- A first sample, a last one, and one of the middle segment, S = 7. -/
theorem witness_NrztSamples :
    [true, false][0]? = some true ∧ 0 < 7 / 3 ∧ [true, false][1]? = some false ∧ 2 * (7 / 3) ≤ 6 ∧ 6 < 7 ∧
    7 / 3 ≤ 2 ∧ 2 < 2 * (7 / 3) := by decide

theorem witness_NrztBoundaryPolicy :
    [true, false].head? = some true ∧ [true, false].getLast? = some false ∧ 0 < 7 / 3 ∧ 2 < 7 - 2 * (7 / 3) := by decide

theorem witness_RampProfilesKeepLimits :
    (15 : BitVec 4) ≠ 0 ∧ half.isNaN = false ∧ one.isNaN = false ∧ half.isFinite = true ∧ one.isFinite = true ∧
    0 < 2 ∧ 0 + 1 < 2 := by decide

/-- A midpoint that is not -0.0; and one that is, from Amin = -2^-1074 and Amax = +0.0, with a level on either side. -/
theorem witness_RefRampStartsAtMidpoint :
    (zero.isFinite = true ∧ one.isFinite = true ∧ F64.isFinite (F64.add one zero) = true ∧ 0 < 1 ∧
      midLevel zero one ≠ 0x8000000000000000) ∧
    F64.isFinite 0x8000000000000001 = true ∧ F64.isFinite (F64.add zero 0x8000000000000001) = true ∧
    midLevel 0x8000000000000001 zero = 0x8000000000000000 ∧
    (level 0x8000000000000001 zero false).units < 0 ∧ 0 ≤ (level 0x8000000000000001 zero true).units := by
  decide +kernel

theorem witness_RefRampKeepsLimits :
    2 ^ 28 - 2 < 2 ^ 28 ∧ minusOne.isFinite = true ∧ one.isFinite = true ∧ F64.lt minusOne one = true ∧
    F64.isFinite (F64.add one minusOne) = true ∧ 2 ^ 28 - 2 + 1 < 2 ^ 28 ∧ 2 ^ 28 ≤ 2 ^ 28 := by decide +kernel

/-- Unequal neighbours (bits 0, 1) and equal ones (bits 1, 2) at the least S with a middle segment; and at S = 1 an
equal neighbour followed by an equal bit, and one at the end under FLAT. -/
theorem witness_NrztIsContinuous :
    Config.Params.reference.profile = 0 ∧ zero.isFinite = true ∧ one.isFinite = true ∧
    F64.isFinite (F64.add one zero) = true ∧ midLevel zero one ≠ 0x8000000000000000 ∧ 1 ≤ 1 ∧ 3 ≤ 3 ∧
    [false, true, true][0]? = some false ∧ [false, true, true][0 + 1]? = some true ∧
    [false, true, true][1 + 1]? = some true ∧ false ≠ true ∧ 1 ≤ 1 ∧ 1 < 2 * (3 / 3) ∧
    [true, true, true][0 + 2]? = some true ∧ [true, true, true][1 + 2]? = none ∧
    Config.Params.reference.boundary = .flat := by decide +kernel

theorem witness_RzSamples : [true, false][0]? = some true ∧ 1 < 3 ∧ 3 / 3 ≤ 1 ∧ 1 < 2 * (3 / 3) := by decide

/-- A tie between two neighbours: 2^53 + 1 units lie halfway between 2^53 and 2^53 + 2. -/
theorem witness_RoundingIsNearestEven :
    0 < 1 ∧ F64.roundMag (2 ^ 53 + 1) 1 < F64.infMag ∧ F64.isFinite 0x0020000000000001 = true ∧
    (F64.mag 0x0020000000000001 * (1 : Nat) - (2 ^ 53 + 1 : Nat) : Int).natAbs =
      ((F64.pack false (F64.roundMag (2 ^ 53 + 1) 1)).mag * (1 : Nat) - (2 ^ 53 + 1 : Nat) : Int).natAbs ∧
    F64.mag 0x0020000000000001 ≠ (F64.pack false (F64.roundMag (2 ^ 53 + 1) 1)).mag := by decide +kernel

/-- Finite operands of both signs, a zero divided by a number, and the greatest integer below 2^53. -/
theorem witness_OperationsRoundToNearest :
    minusOne.isFinite = true ∧ one.isFinite = true ∧ zero.isFinite = true ∧ minusOne.units ≠ 0 ∧
    2 ^ 53 - 1 < 2 ^ 53 := by decide +kernel

/-- A NaN, finite numbers with both zeros among them, and both infinities. -/
theorem witness_ComparisonsFollowValues :
    F64.isNaN 0x7FF8000000000000 = true ∧ zero.isFinite = true ∧ F64.isFinite 0x8000000000000000 = true ∧
    F64.isInf 0x7FF0000000000000 = true ∧ F64.isInf 0xFFF0000000000000 = true := by decide +kernel

theorem witness_EmitDeliversStoredOutput : received.outValid = true ∧ State.reset.outValid = false := ⟨rfl, rfl⟩

/-- Another BITLEN and another active scheme. -/
theorem witness_EmitIgnoresInputs :
    (let s' := { received with bitlen := 7, aScheme := 2 }
     s'.params = received.params ∧ s'.outValid = received.outValid ∧ s'.outlen = received.outlen ∧
      s'.consumers = received.consumers ∧ s'.trace = received.trace ∧ s'.mem = received.mem) ∧
    ∃ t, exec .emit received = .next t := ⟨⟨rfl, rfl, rfl, rfl, rfl, rfl⟩, exists_next (by decide +kernel)⟩

theorem witness_ConnectRegistersSlot :
    State.reset.params.Legal ∧ 3 < State.reset.params.maxConsumers ∧ State.reset.params.maxConsumers ≤ 4 := by decide

theorem witness_DisconnectDeregistersSlot :
    received.params.Legal ∧ 0 < received.params.maxConsumers ∧ received.params.maxConsumers ≤ 4 := by decide

theorem witness_OutputCommandsFrame :
    (∃ t, exec .emit received = .next t) ∧ (∃ t, exec (.connect 3) received = .next t) ∧
    ∃ t, exec (.disconnect 0) received = .next t :=
  ⟨exists_next (by decide +kernel), exists_next (by decide +kernel), exists_next (by decide +kernel)⟩

/-- A step whose next input is a CMD write, and so no reset: for the statements about what a step changes. -/
theorem witness_TraceGrowsByDeliveryOnly :
    (let s := facing received (commandAccess received.params 3)
     (∃ t, step s = .next t) ∧ ¬ResetNext s ∧ CommandNext s 0x00000003 ∧ consumersReg s ≠ 0) := by
  refine ⟨exists_next (by decide +kernel), ?_, ⟨[], rfl⟩, by decide⟩
  rintro ⟨rest, h⟩
  simp [facing, commandAccess] at h

theorem witness_ErrorsChangeOnlyErrcode : ∃ t, performCommand State.reset 2 = .next t ∧ t.errcode ≠ 0 :=
  ⟨_, rfl, by decide⟩

theorem witness_RegisterFields :
    State.reset.params.Legal ∧ (ramped State.reset).params.Legal ∧ State.reset.params.maxConsumers ≤ 4 := by decide

theorem witness_ParameterRegistersConstant :
    (∃ t, step (facing State.reset .reset) = .next t) ∧ State.reset.params.Legal :=
  ⟨exists_next (by decide +kernel), by decide⟩

/-- A CONFIG and a RECEIVE that succeed, each the next input. -/
theorem witness_FlagsSetByTheirCommandOnly :
    (let s := facing (staged 0 zero one 1) (commandAccess Config.Params.reference 1)
     (∃ t, step s = .next t) ∧ ¬ResetNext s ∧ CommandNext s 0x00000001) ∧
    (let s := facing (configured 0 zero one 1 1 1) (commandAccess Config.Params.reference 2)
     (∃ t, step s = .next t) ∧ ¬ResetNext s ∧ CommandNext s 0x00000002) := by
  refine ⟨⟨exists_next (by decide +kernel), ?_, ⟨[], rfl⟩⟩, exists_next (by decide +kernel), ?_, ⟨[], rfl⟩⟩ <;>
    (rintro ⟨rest, h⟩; simp [facing, commandAccess] at h)

theorem witness_ActiveChangesByConfigOnly :
    (let s := facing (staged 0 zero one 1) (commandAccess Config.Params.reference 1)
     (∃ t, step s = .next t) ∧ ¬ResetNext s) := witness_FlagsSetByTheirCommandOnly.1.imp id And.left

/-- Legal parameters with a window that starts above 0, and an address below it. -/
theorem witness_AccessesRefusedExactly :
    { Config.Params.reference with base := 65536 }.Legal ∧
    65535 < { Config.Params.reference with base := 65536 }.base := by decide

/-- The boundary offsets of the map at the reference parameters, inside and out. -/
theorem witness_Readable_Writable :
    Readable Config.Params.reference 0x004 ∧ Readable Config.Params.reference 0x04C ∧
    Readable Config.Params.reference 0x1000 ∧ Readable Config.Params.reference 0x107C ∧
    Readable Config.Params.reference 0x10000 ∧ Readable Config.Params.reference 0x2FFFC ∧
    ¬Readable Config.Params.reference 0x000 ∧ ¬Readable Config.Params.reference 0x050 ∧
    ¬Readable Config.Params.reference 0x1080 ∧ ¬Readable Config.Params.reference 0x30000 ∧
    Writable Config.Params.reference 0x000 ∧ Writable Config.Params.reference 0x107C ∧
    ¬Writable Config.Params.reference 0x10000 := by
  refine ⟨?_, ?_, ?_, ?_, ?_, ?_, ?_, ?_, ?_, ?_, ?_, ?_, ?_⟩
  all_goals simp [Readable, Writable, InBuffers, ReadWriteAt, bitbufBase, outbufBase, Config.Params.reference]

/-- Every read-write register has an offset. -/
theorem witness_RegisterWriteReadsBack :
    ReadWriteAt .sScheme 0x008 ∧ ReadWriteAt .sSpb 0x00C ∧ ReadWriteAt .sAminLo 0x010 ∧ ReadWriteAt .sAminHi 0x014 ∧
    ReadWriteAt .sAmaxLo 0x018 ∧ ReadWriteAt .sAmaxHi 0x01C ∧ ReadWriteAt .bitlen 0x038 := by
  refine ⟨?_, ?_, ?_, ?_, ?_, ?_, ?_⟩ <;> simp [ReadWriteAt]

/-- The first, an inner and the last offset of the readable registers. -/
theorem witness_RegisterReadsReturnTheirValue :
    received.params.Legal ∧ 0x004 % 4 = 0 ∧ 0x004 ≤ 0x040 ∧ 0x040 % 4 = 0 ∧ 0x040 ≤ 0x04C ∧ 0x04C % 4 = 0 ∧
    RegisterReadsAs received 0x040 1 := ⟨by decide, by decide, by decide, by decide, by decide, by decide,
      by unfold RegisterReadsAs; iterate 15 right
         exact .inl ⟨rfl, by decide⟩⟩

theorem witness_StagingChangesByOwnWriteOnly :
    (let s := facing State.reset (.access (.write 32 0x038 5))
     ReadWriteAt .bitlen 0x038 ∧ (∃ t, step s = .next t) ∧ ¬ResetNext s) := by
  refine ⟨by simp [ReadWriteAt], exists_next (by decide +kernel), ?_⟩
  rintro ⟨rest, h⟩
  simp [facing] at h

/-- The first and the last word of BITBUF. -/
theorem witness_BitbufWriteLaysOutBits :
    0 < State.reset.params.maxBits / 32 ∧ 31 < State.reset.params.maxBits / 32 := by decide

theorem witness_BitbufReadReturnsBits :
    31 < received.params.maxBits / 32 ∧ 0 < received.params.maxBits / 32 ∧ 31 < 32 ∧
    bitRead received.mem (32 * 0 + 0) = some true := by decide +kernel

theorem witness_OutbufReadReturnsHalves :
    StateInv received ∧ 16383 < received.params.maxSamples ∧ 1 < 2 ∧ received.outValid = true ∧
    0 < received.outlen.toNat := ⟨received_inv, by decide, by decide, rfl, by decide⟩

theorem witness_ReadsHaveNoSideEffect : ∃ t, hostAccess received (.read 32 0x10004) = .next t :=
  exists_next (by decide +kernel)

theorem witness_HostWritesLeaveOutput :
    received.params.Legal ∧ 0x1000 ≠ received.params.base ∧ ∃ t, hostAccess received (.write 32 0x1000 7) = .next t :=
  ⟨by decide, by decide, exists_next (by decide +kernel)⟩

theorem witness_ReceiveIgnoresStaging :
    (∃ t, exec .receive (configured 1 zero one 4 2 1) = .next t) ∧
    exec .receive (configured 0 zero one 2 33 0) = .fault .unwrittenInput := by
  refine ⟨exists_next (by decide +kernel), ?_⟩
  have h : isFault (exec .receive (configured 0 zero one 2 33 0)) = true := by decide +kernel
  cases ho : exec .receive (configured 0 zero one 2 33 0) with
  | next t => rw [ho] at h; cases h
  | refused r => rw [ho] at h; cases h
  | fault r => cases r; rfl

theorem witness_ResetEstablishesResetState :
    (facing received .reset).faultMark = false ∧ (facing received .reset).pending = [.reset] := ⟨rfl, rfl⟩

theorem witness_AfterResetCommandsFail :
    consumersReg State.reset = 0 ∧ (∃ t, exec .emit State.reset = .next t) ∧
    ∃ t, exec (.connect 0) State.reset = .next t :=
  ⟨by decide, exists_next (by decide +kernel), exists_next (by decide +kernel)⟩

theorem witness_MarkedStateHasNoStep :
    { State.reset with faultMark := true }.faultMark = true ∧ ∃ t, step (facing State.reset .reset) = .next t :=
  ⟨rfl, exists_next (by decide +kernel)⟩

theorem witness_IdleHoldsState : received.faultMark = false ∧ received.pending = [] := ⟨rfl, rfl⟩

/-- A state that meets the invariant with a CMD write next. -/
theorem witness_StepKeepsInvariant :
    (let s := facing received (commandAccess received.params 3); StateInv s ∧ ∃ t, step s = .next t) := by
  refine ⟨?_, exists_next (by decide +kernel)⟩
  obtain ⟨h1, h2, h3, h4, h5, h6, h7, h8, h9, h10, h11, h12⟩ := received_inv
  exact ⟨h1, h2, h3, h4, fun h => ⟨(h5 h).1, (h5 h).2, (h5 h).3, (h5 h).4, (h5 h).5, (h5 h).6⟩, h6, h7, h8, h9, h10,
    h11, h12⟩

theorem witness_ResetMeetsInvariant : Config.Params.reference.Legal := by decide

theorem witness_StepKeepsMemoryCanonical :
    Memory.wf (facing received (commandAccess received.params 2)).mem ∧
    ∃ t, step (facing received (commandAccess received.params 2)) = .next t :=
  ⟨by decide +kernel, exists_next (by decide +kernel)⟩

end Sys2Proof.Tests
end

section
/-! PROOFS. Binary64 (R10): rounding, the operations and the comparisons: O25, O53, O54. -/

namespace Sys2Proof

open Safety

/-! ## What it is to be nearest, ties to even -/

/-- `n` has the least error of all, and of two with the least error the even one. -/
def F64.IsNearestEven (err : Nat → Nat) (n : Nat) : Prop :=
  ∀ k, err n ≤ err k ∧ (err k = err n → k ≠ n → n % 2 = 0)

/-- How far the encoding `n` is from `num / den` units, in units of `1 / den`. -/
def F64.magError (num den n : Nat) : Nat := ((F64.magOf n : Int) * den - num).natAbs

/-- Rounding to an integer moves by at most half a unit, and by half a unit only to an even integer. -/
theorem F64.two_nearestEven_error_le (n : Nat) {d : Nat} (hd : 0 < d) :
    2 * ((F64.nearestEven n d : Int) * d - n).natAbs ≤ d ∧
      (2 * ((F64.nearestEven n d : Int) * d - n).natAbs = d → F64.nearestEven n d % 2 = 0) := by
  have hdiv : ((n / d : Nat) : Int) * d + (n % d : Nat) = n := by exact_mod_cast Nat.div_add_mod' n d
  have hr := Nat.mod_lt n hd
  have hup : ((n / d + 1 : Nat) : Int) * d = (n / d : Nat) * d + d := by push_cast; ring
  unfold F64.nearestEven
  dsimp only
  split_ifs <;> omega

/-- `nearestEven` is the nearest integer, ties to even: another integer is a whole unit away from it. -/
theorem F64.nearestEven_isNearestEven (n : Nat) {d : Nat} (hd : 0 < d) :
    F64.IsNearestEven (fun k => ((k : Int) * d - n).natAbs) (F64.nearestEven n d) := by
  intro k
  obtain ⟨hhalf, heven⟩ := F64.two_nearestEven_error_le n hd
  generalize F64.nearestEven n d = m at *
  dsimp only
  by_cases hk : k = m
  · exact ⟨by rw [hk], fun _ hne => absurd hk hne⟩
  · have hstep : d ≤ ((k : Int) * d - m * d).natAbs := by
      rw [← Int.sub_mul, Int.natAbs_mul, Int.natAbs_natCast]
      exact Nat.le_mul_of_pos_left d (by omega)
    exact ⟨by omega, fun htie _ => heven (by omega)⟩

/-! ## The unbounded rounding is nearest -/

/-- A magnitude is a multiple of `2^e`, or below the magnitudes that have 53 bits at scale `e`. -/
theorem F64.dvd_magOf_or_lt (e n : Nat) : 2 ^ e ∣ F64.magOf n ∨ F64.magOf n < 2 ^ 52 * 2 ^ e := by
  have hr : n % 2 ^ 52 < 2 ^ 52 := Nat.mod_lt _ (by norm_num)
  by_cases h0 : n / 2 ^ 52 = 0
  · right
    rw [F64.magOf_zero_field h0]
    exact lt_of_lt_of_le hr (Nat.le_mul_of_pos_right _ (by positivity))
  · rw [F64.magOf_pos_field h0]
    rcases Nat.lt_or_ge (n / 2 ^ 52 - 1) e with he | he
    · right
      calc (2 ^ 52 + n % 2 ^ 52) * 2 ^ (n / 2 ^ 52 - 1) < 2 ^ 53 * 2 ^ (n / 2 ^ 52 - 1) :=
            Nat.mul_lt_mul_of_pos_right (by omega) (by positivity)
        _ = 2 ^ 52 * 2 ^ (n / 2 ^ 52 - 1 + 1) := by ring
        _ ≤ 2 ^ 52 * 2 ^ e := Nat.mul_le_mul_left _ (Nat.pow_le_pow_right (by norm_num) he)
    · exact .inl (Dvd.dvd.mul_left (pow_dvd_pow 2 he) _)

/-- A value that is scaled down has 53 bits before its binary point at its scale. -/
theorem F64.le_of_scaleOf_pos {num den : Nat} (h : 0 < F64.scaleOf num den) :
    2 ^ 52 * 2 ^ F64.scaleOf num den * den ≤ num := by
  have hlog : Nat.log2 (num / den) = 52 + F64.scaleOf num den := by unfold F64.scaleOf at *; omega
  have hne : num / den ≠ 0 := fun hz => by
    rw [hz, Nat.log2_zero] at hlog
    omega
  rw [← pow_add, ← hlog]
  exact le_trans (Nat.mul_le_mul_right _ (Nat.log2_self_le hne)) (Nat.div_mul_le_self _ _)

/-- The error of a multiple of `2^e` is that of its significand, as an integer multiple of the unit at scale `e`. -/
theorem F64.magError_of_eq_mul {num den n k e : Nat} (h : F64.magOf n = k * 2 ^ e) :
    F64.magError num den n = ((k : Int) * (den * 2 ^ e : Nat) - num).natAbs := by
  rw [F64.magError, h]
  push_cast
  ring_nf

/-- A magnitude below a point that is itself not above the quotient has a greater error than that point. -/
theorem F64.lt_magError_of_lt {num den n p : Nat} (hden : 0 < den) (hn : F64.magOf n < p) (hp : p * den ≤ num) :
    ((p * den : Nat) - num : Int).natAbs < F64.magError num den n := by
  have hlt := Nat.mul_lt_mul_of_pos_right hn hden
  rw [F64.magError, ← Nat.cast_mul]
  omega

/-- Without the clip to infinity, rounding finds the encoding nearest to the quotient, ties to even: at its own scale
the significand is the nearest integer, and what is no multiple of that scale's unit is smaller and farther away. -/
theorem F64.roundUnbounded_isNearestEven (num : Nat) {den : Nat} (hden : 0 < den) :
    F64.IsNearestEven (F64.magError num den) (F64.roundUnbounded num den) := by
  intro n
  have hsig := F64.nearestEven_isNearestEven num (d := den * 2 ^ F64.scaleOf num den) (by positivity)
  have hmag := F64.magOf_roundUnbounded num den
  have hscale := F64.le_of_scaleOf_pos (num := num) (den := den)
  have heven : F64.roundUnbounded num den % 2 = F64.nearestEven num (den * 2 ^ F64.scaleOf num den) % 2 := by
    unfold F64.roundUnbounded
    omega
  rw [F64.magError_of_eq_mul hmag, heven]
  generalize F64.nearestEven num (den * 2 ^ F64.scaleOf num den) = m at *
  generalize F64.scaleOf num den = e at *
  by_cases hdvd : 2 ^ e ∣ F64.magOf n
  · obtain ⟨k, hk⟩ := hdvd
    rw [Nat.mul_comm] at hk
    rw [F64.magError_of_eq_mul hk]
    refine ⟨(hsig k).1, fun htie hne => (hsig k).2 htie ?_⟩
    rintro rfl
    exact hne (F64.magOf_strictMono.injective (hk.trans hmag.symm))
  · have he : 0 < e := Nat.pos_of_ne_zero fun h => hdvd (by simp [h])
    have hfar := F64.lt_magError_of_lt hden ((F64.dvd_magOf_or_lt e n).resolve_left hdvd) (hscale he)
    have hnear : ((m : Int) * (den * 2 ^ e : Nat) - num).natAbs ≤
        ((2 ^ 52 * 2 ^ e * den : Nat) - num : Int).natAbs := by
      rw [Nat.mul_right_comm, Nat.mul_assoc, Nat.cast_mul (2 ^ 52)]
      exact (hsig (2 ^ 52)).1
    omega

/-! ## Overflow -/

/-- The overflow threshold lies halfway between the greatest finite magnitude and the next one, whose encoding, that
of infinity, is even. -/
theorem F64.magOf_around_overflow :
    F64.magOf (F64.infMag - 1) + F64.magOf F64.infMag = 2 * ((2 ^ 54 - 1) * 2 ^ 2044) ∧ F64.infMag % 2 = 0 := by
  decide +kernel

theorem F64.infMag_pos : 0 < F64.infMag := by norm_num [F64.infMag]

theorem F64.magOf_mul_lt {den i j : Nat} (hden : 0 < den) (h : i < j) :
    (F64.magOf i : Int) * den < F64.magOf j * den :=
  mod_cast Nat.mul_lt_mul_of_pos_right (F64.magOf_strictMono h) hden

theorem F64.magOf_mul_le (den : Nat) {i j : Nat} (h : i ≤ j) : (F64.magOf i : Int) * den ≤ F64.magOf j * den :=
  mod_cast Nat.mul_le_mul_right den (F64.magOf_strictMono.monotone h)

/-- Rounding overflows exactly from half a unit above the greatest finite number: from there on infinity's encoding is
as near as any finite one, and the tie with the greatest, an odd encoding, goes to infinity. -/
theorem F64.infMag_le_roundUnbounded_iff (num : Nat) {den : Nat} (hden : 0 < den) :
    F64.infMag ≤ F64.roundUnbounded num den ↔ (2 ^ 54 - 1) * 2 ^ 2044 * den ≤ num := by
  obtain ⟨hmid, heven⟩ := F64.magOf_around_overflow
  have hpos := F64.infMag_pos
  have hnear := F64.roundUnbounded_isNearestEven num hden
  generalize (2 ^ 54 - 1) * 2 ^ 2044 = t at *
  generalize F64.roundUnbounded num den = u at *
  have hmid' : (F64.magOf (F64.infMag - 1) : Int) * den + F64.magOf F64.infMag * den = 2 * (t * den : Nat) := by
    rw [← add_mul, Nat.cast_mul, ← mul_assoc]
    exact_mod_cast congrArg (· * den) hmid
  have hstep := F64.magOf_mul_lt hden (show F64.infMag - 1 < F64.infMag by omega)
  unfold F64.IsNearestEven F64.magError at hnear
  constructor
  · intro h
    have hge := F64.magOf_mul_le den h
    have hle := (hnear (F64.infMag - 1)).1
    omega
  · intro h
    by_contra hlt
    have hu := F64.magOf_mul_le den (show u ≤ F64.infMag - 1 by omega)
    obtain ⟨hle, htie⟩ := hnear F64.infMag
    have hueven : u % 2 = 0 := htie (by omega) (by omega)
    have hu' := F64.magOf_mul_lt hden (show u < F64.infMag - 1 by omega)
    omega

theorem F64.roundMag_eq_infMag_iff (num : Nat) {den : Nat} (hden : 0 < den) :
    F64.roundMag num den = F64.infMag ↔ (2 ^ 54 - 1) * 2 ^ 2044 * den ≤ num := by
  rw [F64.roundMag_eq, min_eq_right_iff, F64.infMag_le_roundUnbounded_iff num hden]

theorem F64.roundMag_lt_infMag_iff (num : Nat) {den : Nat} (hden : 0 < den) :
    F64.roundMag num den < F64.infMag ↔ num < (2 ^ 54 - 1) * 2 ^ 2044 * den := by
  rw [lt_iff_le_and_ne, ne_eq, F64.roundMag_eq_infMag_iff num hden, not_le]
  exact and_iff_right (F64.roundMag_le num den)

/-- Short of overflow the clip to infinity does nothing. -/
theorem F64.roundMag_eq_roundUnbounded {num den : Nat} (h : F64.roundMag num den < F64.infMag) :
    F64.roundMag num den = F64.roundUnbounded num den := by
  rw [F64.roundMag_eq] at h ⊢
  omega

theorem F64.roundMag_isNearestEven {num den : Nat} (hden : 0 < den) (h : F64.roundMag num den < F64.infMag) :
    F64.IsNearestEven (F64.magError num den) (F64.roundMag num den) := by
  rw [F64.roundMag_eq_roundUnbounded h]
  exact F64.roundUnbounded_isNearestEven num hden

theorem F64.mag_pack_roundMag (neg : Bool) (num den : Nat) :
    (F64.pack neg (F64.roundMag num den)).mag = F64.magOf (F64.roundMag num den) := by
  rw [F64.mag_eq, F64.low_pack _ (F64.roundMag_lt _ _)]

/-- Settles O25: the significand is the nearest integer at its scale, and no number of a smaller scale is nearer. -/
theorem roundingIsNearestEven : Obligations.RoundingIsNearestEven := by
  intro num den hden
  refine ⟨F64.roundMag_eq_infMag_iff num hden, fun h y _ => ?_⟩
  rw [F64.mag_pack_roundMag, F64.mag_eq y]
  obtain ⟨hle, htie⟩ := F64.roundMag_isNearestEven hden h y.low
  exact ⟨hle, fun he hne => htie he fun hy => hne (congrArg _ hy)⟩

/-! ## Rounding a signed value -/

/-- A number that is not zero has the sign of its value. -/
theorem F64.sign_eq_of_units_ne_zero {x : F64} (h : x.units ≠ 0) : x.sign = decide (x.units < 0) := by
  unfold F64.units at *
  cases hs : x.sign <;> simp [hs] at h ⊢
  omega

/-- The error of a number's magnitude is at most the error of its value. -/
theorem F64.magError_le (num : Int) (den : Nat) (y : F64) :
    F64.magError num.natAbs den y.low ≤ (y.units * den - num).natAbs := by
  have hy : (y.units * den).natAbs = y.mag * den := by rw [Int.natAbs_mul, F64.natAbs_units, Int.natAbs_natCast]
  rw [F64.magError, ← F64.mag_eq, ← Nat.cast_mul, ← hy]
  omega

/-- The errors of magnitude and value are the same for a number that has the sign of the exact value. -/
theorem F64.magError_eq {num : Int} (den : Nat) {x : F64} (hs : num ≠ 0 → x.sign = decide (num < 0)) :
    F64.magError num.natAbs den x.low = (x.units * den - num).natAbs := by
  have hx : 0 ≤ (x.mag : Int) * den := by positivity
  rw [F64.magError, ← F64.mag_eq, F64.units]
  rcases lt_trichotomy num 0 with h | rfl | h
  · rw [hs (by omega), decide_eq_true h, if_pos rfl, neg_mul]
    omega
  · split <;> simp
  · rw [hs (by omega), decide_eq_false (by omega), if_neg (by simp)]
    omega

/-- A rounded magnitude with the sign of the exact value is that value rounded as R10 says. -/
theorem F64.roundsTo_pack (num : Int) {den : Nat} (hden : 0 < den) {sign zeroSign : Bool}
    (hs : sign = if num = 0 then zeroSign else decide (num < 0)) :
    RoundsTo num den zeroSign (F64.pack sign (F64.roundMag num.natAbs den)) := by
  have hlow := F64.low_pack sign (F64.roundMag_lt num.natAbs den)
  have hsign := F64.sign_pack sign (F64.roundMag_lt num.natAbs den)
  have hzero : num = 0 → F64.roundMag num.natAbs den = 0 := fun h => by rw [h]; exact F64.roundMag_zero den
  have hnear := F64.roundMag_isNearestEven (num := num.natAbs) hden
  rw [← hlow] at hnear hzero
  generalize hx : F64.pack sign (F64.roundMag num.natAbs den) = x at *
  have herr := F64.magError_eq (num := num) den (x := x) fun h => by rw [hsign, hs, if_neg h]
  refine ⟨?_, ?_, hsign.trans hs, ?_, ?_⟩
  · rw [Bool.eq_false_iff, ne_eq, F64.isNaN_iff, hlow, not_lt]
    exact F64.roundMag_le _ _
  · rw [F64.isFinite_iff, hlow]
    exact F64.roundMag_lt_infMag_iff _ hden
  · intro hfin y _
    rw [← herr]
    exact le_trans (hnear ((F64.isFinite_iff x).1 hfin) y.low).1 (F64.magError_le num den y)
  · intro hfin y _ htie hne
    have heven : x.low % 2 = 0 → x.toNat % 2 = 0 := by unfold F64.low; omega
    obtain ⟨hle, hmagtie⟩ := hnear ((F64.isFinite_iff x).1 hfin) y.low
    have hyle := F64.magError_le num den y
    refine heven ?_
    -- Two numbers with one encoding but two values are opposite, and equally far from 0 alone.
    by_cases hmag : y.low = x.low
    · have hsame : (y.units * den).natAbs = (x.units * den).natAbs := by
        rw [Int.natAbs_mul, Int.natAbs_mul, F64.natAbs_units, F64.natAbs_units, F64.mag_eq, F64.mag_eq, hmag]
      have hdiff : y.units * den ≠ x.units * den := fun h => hne (mul_right_cancel₀ (by omega) h)
      rw [hzero (by omega)]
    · exact hmagtie (by omega) hmag

/-! ## The operations -/

theorem F64.roundsTo_add {a b : F64} (ha : a.isFinite = true) (hb : b.isFinite = true) :
    RoundsTo (a.units + b.units) 1 (a.sign && b.sign) (F64.add a b) := by
  rw [F64.add_eq_pack ha hb]
  exact F64.roundsTo_pack _ one_pos rfl

theorem F64.roundsTo_sub {a b : F64} (ha : a.isFinite = true) (hb : b.isFinite = true) :
    RoundsTo (a.units - b.units) 1 (a.sign && !b.sign) (F64.sub a b) := by
  rw [F64.sub, sub_eq_add_neg, ← F64.units_neg, ← F64.sign_neg]
  exact F64.roundsTo_add ha (by rw [F64.isFinite_neg, hb])

/-- The product of two numbers that are not zero is negative exactly if their signs differ. -/
theorem F64.bne_sign_eq_of_mul {a b : F64} (ha : a.units ≠ 0) (hb : b.units ≠ 0) :
    (a.sign != b.sign) = decide (a.units * b.units < 0) := by
  rw [F64.sign_eq_of_units_ne_zero ha, F64.sign_eq_of_units_ne_zero hb, Bool.eq_iff_iff]
  simp only [bne_iff_ne, ne_eq, decide_eq_decide, decide_eq_true_eq, mul_neg_iff]
  omega

theorem F64.roundsTo_mul {a b : F64} (ha : a.isFinite = true) (hb : b.isFinite = true) :
    RoundsTo (a.units * b.units) (2 ^ 1074) (a.sign != b.sign) (F64.mul a b) := by
  have hmul : F64.mul a b = F64.pack (a.sign != b.sign) (F64.roundMag (a.units * b.units).natAbs (2 ^ 1074)) := by
    rw [F64.mul, ha, hb, Int.natAbs_mul, F64.natAbs_units, F64.natAbs_units]
    rfl
  rw [hmul]
  refine F64.roundsTo_pack _ (by positivity) ?_
  split
  · rfl
  · next h => exact F64.bne_sign_eq_of_mul (left_ne_zero_of_mul h) (right_ne_zero_of_mul h)

/-- Dividing by a number with the sign of `b` flips the sign of a number that is not zero exactly if `b` is negative. -/
theorem F64.bne_sign_eq_of_div {a b : F64} (ha : a.units ≠ 0) :
    (a.sign != b.sign) = decide ((if b.sign then -a.units else a.units) < 0) := by
  rw [F64.sign_eq_of_units_ne_zero ha, Bool.eq_iff_iff]
  cases b.sign
  · simp
  · simp
    omega

theorem F64.div_eq_pack {a b : F64} (ha : a.isFinite = true) (hb : b.isFinite = true) (h0 : b.mag ≠ 0) :
    F64.div a b = F64.pack (a.sign != b.sign) (F64.roundMag (a.mag * 2 ^ 1074) b.mag) := by
  rw [F64.div, F64.not_isNaN_of_finite ha, F64.not_isInf_of_finite ha, F64.not_isNaN_of_finite hb,
    F64.not_isInf_of_finite hb, if_neg (by decide), if_neg (by decide), if_neg (by decide), if_neg h0]

theorem F64.roundsTo_div {a b : F64} (ha : a.isFinite = true) (hb : b.isFinite = true) (h0 : b.units ≠ 0) :
    RoundsTo ((if b.sign then -a.units else a.units) * 2 ^ 1074) b.mag (a.sign != b.sign) (F64.div a b) := by
  have hmag : b.mag ≠ 0 := by rw [← F64.natAbs_units]; exact Int.natAbs_ne_zero.2 h0
  have hpow : (0 : Int) < 2 ^ 1074 := by positivity
  have hnum : ((if b.sign then -a.units else a.units) * 2 ^ 1074).natAbs = a.mag * 2 ^ 1074 := by
    rw [Int.natAbs_mul, apply_ite Int.natAbs, Int.natAbs_neg, ite_self, F64.natAbs_units, Int.natAbs_pow]
    rfl
  rw [F64.div_eq_pack ha hb hmag, ← hnum]
  refine F64.roundsTo_pack _ (Nat.pos_of_ne_zero hmag) ?_
  by_cases ha0 : a.units = 0
  · rw [ha0, neg_zero, ite_self, zero_mul, if_pos rfl]
  · have hne : (if b.sign then -a.units else a.units) ≠ 0 := by split <;> omega
    rw [if_neg (mul_ne_zero hne hpow.ne'), F64.bne_sign_eq_of_div ha0]
    exact decide_eq_decide.2 ⟨fun h => mul_neg_of_neg_of_pos h hpow, fun h => neg_of_mul_neg_left h hpow.le⟩

/-- An integer that is a multiple of the unit in the last place is rounded to itself. -/
theorem F64.magOf_roundUnbounded_of_dvd {n : Nat} (h : 2 ^ F64.scaleOf n 1 ∣ n) :
    F64.magOf (F64.roundUnbounded n 1) = n := by
  rw [F64.magOf_roundUnbounded, one_mul]
  obtain ⟨k, hk⟩ := h
  have := F64.nearestEven_mul k (Nat.two_pow_pos (F64.scaleOf n 1))
  rw [Nat.mul_comm, ← hk] at this
  rw [this, Nat.mul_comm, ← hk]

/-- A significand of at most 53 bits is exact at its scale. -/
theorem F64.scaleOf_mul_two_pow_le {n : Nat} (h : n < 2 ^ 53) (e : Nat) : F64.scaleOf (n * 2 ^ e) 1 ≤ e := by
  rw [F64.scaleOf, Nat.div_one]
  rcases Nat.eq_zero_or_pos n with rfl | h0
  · simp
  · have : Nat.log2 (n * 2 ^ e) < 53 + e := by
      rw [Nat.log2_lt (by positivity), pow_add]
      exact Nat.mul_lt_mul_of_pos_right h (by positivity)
    omega

/-- `f64(n)` is exact below 2^53. -/
theorem F64.ofNat_exact {n : Nat} (h : n < 2 ^ 53) :
    (F64.ofNat n).isFinite = true ∧ (F64.ofNat n).sign = false ∧ (F64.ofNat n).units = n * 2 ^ 1074 := by
  have hlow : (F64.ofNat n).low = F64.roundMag (n * 2 ^ 1074) 1 := F64.low_pack _ (F64.roundMag_lt _ _)
  have hsign : (F64.ofNat n).sign = false := F64.sign_pack _ (F64.roundMag_lt _ _)
  have hfin : F64.roundMag (n * 2 ^ 1074) 1 < F64.infMag := by
    rw [F64.roundMag_lt_infMag_iff _ one_pos, mul_one]
    exact lt_of_lt_of_le (Nat.mul_lt_mul_of_pos_right h (by positivity)) (by decide +kernel)
  have hmag : (F64.ofNat n).mag = n * 2 ^ 1074 := by
    rw [F64.mag_eq, hlow, F64.roundMag_eq_roundUnbounded hfin]
    exact F64.magOf_roundUnbounded_of_dvd
      (Dvd.dvd.mul_left (pow_dvd_pow 2 (F64.scaleOf_mul_two_pow_le h 1074)) n)
  refine ⟨(F64.isFinite_iff _).2 (hlow ▸ hfin), hsign, ?_⟩
  rw [F64.units, hsign, hmag, if_neg Bool.false_ne_true, Nat.cast_mul, Nat.cast_pow, Nat.cast_ofNat]

/-- Settles O53: each operation packs the exact result's rounded magnitude with the exact result's sign. -/
theorem operationsRoundToNearest : Obligations.OperationsRoundToNearest :=
  ⟨fun _ _ ha hb => ⟨F64.roundsTo_add ha hb, F64.roundsTo_sub ha hb, F64.roundsTo_mul ha hb, F64.roundsTo_div ha hb⟩,
    fun _ => F64.ofNat_exact⟩

/-! ## The comparisons -/

theorem F64.isInf_iff (x : F64) : x.isInf = true ↔ x.low = F64.infMag := by
  have := x.low_lt
  simp only [F64.isInf, F64.expField_eq, F64.fraction_eq, F64.infMag, Bool.and_eq_true, beq_iff_eq]
  omega

theorem F64.isFinite_eq (x : F64) : x.isFinite = (!x.isInf && !x.isNaN) := by
  rw [Bool.eq_iff_iff, Bool.and_eq_true, Bool.not_eq_true', Bool.not_eq_true', ← Bool.not_eq_true, ← Bool.not_eq_true,
    F64.isFinite_iff, F64.isInf_iff, F64.isNaN_iff]
  omega

theorem F64.not_isNaN_of_isInf {x : F64} (h : x.isInf = true) : x.isNaN = false := by
  rw [Bool.eq_false_iff, ne_eq, F64.isNaN_iff, (F64.isInf_iff x).1 h]
  exact lt_irrefl _

/-- Between numbers that are no NaN the comparisons are those of the places. -/
theorem F64.compare_eq {a b : F64} (ha : a.isNaN = false) (hb : b.isNaN = false) :
    F64.lt a b = decide (a.key < b.key) ∧ F64.le a b = decide (a.key ≤ b.key) ∧
      F64.eq a b = decide (a.key = b.key) := by
  simp [F64.lt, F64.le, F64.eq, ha, hb]

theorem F64.compare_nan {a b : F64} (h : a.isNaN = true ∨ b.isNaN = true) :
    F64.lt a b = false ∧ F64.le a b = false ∧ F64.eq a b = false := by
  rcases h with h | h <;> simp [F64.lt, F64.le, F64.eq, h]

@[simp] theorem F64.magOf_zero : F64.magOf 0 = 0 := rfl

/-- The value, in units of 2^-1074, of the number at a place in the order of the numbers. -/
def F64.unitsAt (k : Int) : Int := k.sign * F64.magOf k.natAbs

theorem F64.unitsAt_strictMono : StrictMono F64.unitsAt := by
  refine strictMono_of_odd_strictMonoOn_nonneg (fun k => by simp [F64.unitsAt]) fun i hi j hj hij => ?_
  have hmag : F64.magOf i.natAbs < F64.magOf j.natAbs :=
    F64.magOf_strictMono (Int.natAbs_lt_natAbs_of_nonneg_of_lt hi hij)
  have hj1 : j.sign = 1 := Int.sign_eq_one_of_pos (lt_of_le_of_lt hi hij)
  rw [F64.unitsAt, F64.unitsAt, hj1]
  rcases eq_or_lt_of_le (Set.mem_Ici.1 hi) with rfl | hi
  · simpa using hmag
  · rw [Int.sign_eq_one_of_pos hi]; omega

theorem F64.unitsAt_key (x : F64) : F64.unitsAt x.key = x.units := by
  rw [F64.key_eq, F64.units, F64.mag_eq, F64.unitsAt]
  rcases Nat.eq_zero_or_pos x.low with h | h
  · simp [h]
  · cases x.sign <;> simp [Int.sign_eq_one_of_pos, h]

theorem F64.compare_finite {a b : F64} (ha : a.isFinite = true) (hb : b.isFinite = true) :
    (F64.lt a b = true ↔ a.units < b.units) ∧ (F64.le a b = true ↔ a.units ≤ b.units) ∧
      (F64.eq a b = true ↔ a.units = b.units) := by
  obtain ⟨hlt, hle, heq⟩ := F64.compare_eq (F64.not_isNaN_of_finite ha) (F64.not_isNaN_of_finite hb)
  rw [hlt, hle, heq, ← F64.unitsAt_key a, ← F64.unitsAt_key b, decide_eq_true_iff, decide_eq_true_iff,
    decide_eq_true_iff]
  exact ⟨F64.unitsAt_strictMono.lt_iff_lt.symm, F64.unitsAt_strictMono.le_iff_le.symm,
    F64.unitsAt_strictMono.injective.eq_iff.symm⟩

theorem F64.key_of_isInf {x : F64} (h : x.isInf = true) :
    x.key = if x.sign then -(F64.infMag : Int) else (F64.infMag : Int) := by
  rw [F64.key_eq, (F64.isInf_iff x).1 h]

theorem F64.key_bounds_of_finite {x : F64} (h : x.isFinite = true) :
    -(F64.infMag : Int) < x.key ∧ x.key < F64.infMag := by
  have := (F64.isFinite_iff x).1 h
  rw [F64.key_eq]
  split <;> omega

theorem F64.compare_inf_finite {a b : F64} (ha : a.isInf = true) (hb : b.isFinite = true) :
    F64.lt a b = a.sign ∧ F64.le a b = a.sign ∧ F64.eq a b = false ∧
      F64.lt b a = !a.sign ∧ F64.le b a = !a.sign ∧ F64.eq b a = false := by
  have hna := F64.not_isNaN_of_isInf ha
  have hnb := F64.not_isNaN_of_finite hb
  obtain ⟨hlt, hle, heq⟩ := F64.compare_eq hna hnb
  obtain ⟨hlt', hle', heq'⟩ := F64.compare_eq hnb hna
  obtain ⟨hlow, hhigh⟩ := F64.key_bounds_of_finite hb
  rw [hlt, hle, heq, hlt', hle', heq', F64.key_of_isInf ha]
  cases a.sign <;> simp <;> omega

theorem F64.compare_inf_inf {a b : F64} (ha : a.isInf = true) (hb : b.isInf = true) :
    F64.lt a b = (a.sign && !b.sign) ∧ F64.le a b = (a.sign || !b.sign) ∧ F64.eq a b = (a.sign == b.sign) := by
  obtain ⟨hlt, hle, heq⟩ := F64.compare_eq (F64.not_isNaN_of_isInf ha) (F64.not_isNaN_of_isInf hb)
  have hpos := F64.infMag_pos
  rw [hlt, hle, heq, F64.key_of_isInf ha, F64.key_of_isInf hb]
  cases a.sign <;> cases b.sign <;> simp <;> omega

/-- Settles O54: the places that the comparisons compare are in the order of the values. -/
theorem comparisonsFollowValues : Obligations.ComparisonsFollowValues := fun a _ =>
  ⟨F64.compare_nan, F64.compare_finite, F64.compare_inf_finite, F64.compare_inf_inf, a.isFinite_eq⟩

end Sys2Proof
end

section
/-! PROOFS. Decoding, the write of a register, and what a step can do, said once as an inductive relation. -/

namespace Sys2Proof.Machine

open Sys2Proof.Safety

/-! ## Words and their fields -/

theorem toNat_append_eq_add {m n : Nat} (x : BitVec m) (y : BitVec n) :
    (x ++ y).toNat = x.toNat * 2 ^ n + y.toNat := by
  rw [BitVec.toNat_append, ← Nat.shiftLeft_add_eq_or_of_lt y.isLt, Nat.shiftLeft_eq]

/-- A CMD value is its three fields (R57). -/
theorem fields_append (w : Word) : rsvdField w ++ argField w ++ opcField w = w := by
  apply BitVec.eq_of_toNat_eq
  simp only [toNat_append_eq_add, rsvdField, argField, opcField, BitVec.extractLsb'_toNat, Nat.shiftRight_eq_div_pow]
  have := w.isLt
  omega

/-- Decoding of a command without an argument demands ARG = 0. -/
theorem decodeNoArg_eq_ok {w : Word} {i j : Instr} : decodeNoArg w i = .ok j ↔ argField w = 0 ∧ i = j := by
  unfold decodeNoArg
  split
  · next ha => simp [ha]
  · next ha => exact iff_of_false nofun fun h => ha h.1

/-- A word that decodes is the encoding of its command (R57 to R59). -/
theorem encode_of_decode {w : Word} {i : Instr} (h : decode w = .ok i) : encode i = w := by
  suffices hf : rsvdField w = 0 ∧ argumentOf i = argField w ∧ opcodeOf i = opcField w by
    rw [encode, hf.2.1, hf.2.2, ← hf.1, fields_append]
  unfold decode at h
  split_ifs at h with hr h1 h2 h3 h4 h5
  · obtain ⟨ha, rfl⟩ := decodeNoArg_eq_ok.1 h
    exact ⟨not_not.1 hr, ha.symm, h1.symm⟩
  · obtain ⟨ha, rfl⟩ := decodeNoArg_eq_ok.1 h
    exact ⟨not_not.1 hr, ha.symm, h2.symm⟩
  · obtain ⟨ha, rfl⟩ := decodeNoArg_eq_ok.1 h
    exact ⟨not_not.1 hr, ha.symm, h3.symm⟩
  · cases h
    exact ⟨not_not.1 hr, by simp [argumentOf], h4.symm⟩
  · cases h
    exact ⟨not_not.1 hr, by simp [argumentOf], h5.symm⟩

/-! ## regWrite: it changes its register only (R41) -/

section
variable (s : State) (r : Reg) (v : Word)

@[simp] theorem regWrite_params : (regWrite s r v).params = s.params := by cases r <;> rfl
@[simp] theorem regWrite_cfgValid : (regWrite s r v).cfgValid = s.cfgValid := by cases r <;> rfl
@[simp] theorem regWrite_outValid : (regWrite s r v).outValid = s.outValid := by cases r <;> rfl
@[simp] theorem regWrite_errcode : (regWrite s r v).errcode = s.errcode := by cases r <;> rfl
@[simp] theorem regWrite_lastOpc : (regWrite s r v).lastOpc = s.lastOpc := by cases r <;> rfl
@[simp] theorem regWrite_aScheme : (regWrite s r v).aScheme = s.aScheme := by cases r <;> rfl
@[simp] theorem regWrite_aSpb : (regWrite s r v).aSpb = s.aSpb := by cases r <;> rfl
@[simp] theorem regWrite_aAminLo : (regWrite s r v).aAminLo = s.aAminLo := by cases r <;> rfl
@[simp] theorem regWrite_aAminHi : (regWrite s r v).aAminHi = s.aAminHi := by cases r <;> rfl
@[simp] theorem regWrite_aAmaxLo : (regWrite s r v).aAmaxLo = s.aAmaxLo := by cases r <;> rfl
@[simp] theorem regWrite_aAmaxHi : (regWrite s r v).aAmaxHi = s.aAmaxHi := by cases r <;> rfl
@[simp] theorem regWrite_consumers : (regWrite s r v).consumers = s.consumers := by cases r <;> rfl
@[simp] theorem regWrite_outlen : (regWrite s r v).outlen = s.outlen := by cases r <;> rfl
@[simp] theorem regWrite_mem : (regWrite s r v).mem = s.mem := by cases r <;> rfl
@[simp] theorem regWrite_trace : (regWrite s r v).trace = s.trace := by cases r <;> rfl
@[simp] theorem regWrite_faultMark : (regWrite s r v).faultMark = s.faultMark := by cases r <;> rfl
@[simp] theorem regWrite_pending : (regWrite s r v).pending = s.pending := by cases r <;> rfl
@[simp] theorem regWrite_reads : (regWrite s r v).reads = s.reads := by cases r <;> rfl
@[simp] theorem regWrite_draws : (regWrite s r v).draws = s.draws := by cases r <;> rfl

end

/-- Every register after the write of a writable one. -/
theorem regRead_regWrite (s : State) {r : Reg} (hr : regWritable r = true) (v : Word) (r' : Reg) :
    regRead (regWrite s r v) r' = if r' = r then v else regRead s r' := by
  cases r <;> simp [regWritable] at hr <;> cases r' <;> rfl

/-! ## The effects of a step -/

/-- The samples a RECEIVE of `bits` under the scheme `sch` gives (R74). -/
def rxOutput (s : State) (sch : Scheme) (bits : List Bool) : List F64 :=
  modulate s.params sch (activeAmin s) (activeAmax s) (activeSpb s) bits

/-- `s` as a command finds it when CMD is written with `w`: that input is taken, LAST_OPC is written (R59). -/
abbrev commandStart (s : State) (rest : List Input) (w : Word) : State := setLastOpc (setPending s rest) (opcField w)

/-- Everything a step that answers `t` can have done: one constructor per input, and per way a CMD write ends. -/
inductive StepEffect (s : State) : State → Prop
  | idle (hp : s.pending = []) : StepEffect s s
  | reset {rest} (hp : s.pending = .reset :: rest) : StepEffect s (resetBlock (setPending s rest))
  | read {rest width off v} (hp : s.pending = .access (.read width (s.params.base + off)) :: rest) :
      StepEffect s (observe (setPending s rest) off v)
  | register {rest off r v} (hp : s.pending = .access (.write 32 (s.params.base + off) v) :: rest)
      (hr : regionOf s.params off = some (.register r)) (hw : regWritable r = true) :
      StepEffect s (regWrite (setPending s rest) r v)
  | bitbuf {rest off v} (hp : s.pending = .access (.write 32 (s.params.base + off) v) :: rest) (aligned : off % 4 = 0)
      (lower : bitbufBase ≤ off) (upper : off < bitbufBase + s.params.maxBits / 8) :
      StepEffect s (bitbufWrite (setPending s rest) off v)
  | error {rest w e} (hp : s.pending = commandAccess s.params w :: rest) : StepEffect s (raise (commandStart s rest w) e)
  | config {rest} (hp : s.pending = commandAccess s.params 1 :: rest)
      (amplitudes : amplitudesValid (stagedAmin s) (stagedAmax s) = true) (spb : spbValid s.sSpb.toNat = true) :
      StepEffect s (succeed (commitConfig (commandStart s rest 1)))
  | receive {rest sch bits} (hp : s.pending = commandAccess s.params 2 :: rest)
      (hr : Receivable (commandStart s rest 2) sch bits) :
      StepEffect s (rxCommit (commandStart s rest 2) (rxOutput (commandStart s rest 2) sch bits))
  | emit {rest} (hp : s.pending = commandAccess s.params 3 :: rest) (valid : s.outValid = true) :
      StepEffect s (succeed (deliver (commandStart s rest 3) (storedOutput s)))
  | connect {rest c} (hp : s.pending = commandAccess s.params (encode (.connect c)) :: rest)
      (hc : c < s.params.maxConsumers) :
      StepEffect s (succeed (connectSlot (commandStart s rest (encode (.connect c))) c))
  | disconnect {rest c} (hp : s.pending = commandAccess s.params (encode (.disconnect c)) :: rest)
      (hc : c < s.params.maxConsumers) :
      StepEffect s (succeed (disconnectSlot (commandStart s rest (encode (.disconnect c))) c))

/-- The effects of a write of CMD. -/
theorem stepEffect_of_performCommand {s t : State} {rest : List Input} {w : Word}
    (hp : s.pending = commandAccess s.params w :: rest) (h : performCommand (setPending s rest) w = .next t) :
    StepEffect s t := by
  rcases performCommand_cases h with ⟨-, rfl⟩ | ⟨i, hd, hx⟩
  · exact .error hp
  obtain rfl := encode_of_decode hd
  rcases exec_cases hx with ⟨e, rfl⟩ | ⟨rfl, ha, hs, rfl⟩ | ⟨rfl, sch, bits, hr, rfl⟩ | ⟨rfl, hv, rfl⟩ | ⟨c, rfl, hc, rfl⟩ |
    ⟨c, rfl, hc, rfl⟩
  · exact .error hp
  · exact .config hp ha hs
  · exact .receive hp hr
  · exact .emit hp hv
  · exact .connect hp hc
  · exact .disconnect hp hc

theorem stepEffect_of_step {s t : State} (h : step s = .next t) : StepEffect s t := by
  rcases (step_cases h).2 with ⟨hp, rfl⟩ | ⟨rest, hp, rfl⟩ | ⟨rest, width, off, hp, hx⟩ | ⟨rest, width, off, v, hp, hx⟩
  · exact .idle hp
  · exact .reset hp
  · obtain ⟨v, rfl⟩ := hostRead_cases hx
    exact .read hp
  · obtain ⟨rfl, ho, ⟨rfl, hx⟩ | ⟨r, hr, hw, rfl⟩ | ⟨hl, hu, rfl⟩⟩ := hostWrite_cases hx
    · exact stepEffect_of_performCommand hp hx
    · exact .register hp hr hw
    · exact .bitbuf hp ho hl hu

end Sys2Proof.Machine
end

section
/-! PROOFS. What steps change, and what the registers read: O5, O31, O33, O34, O35, O36, O38, O48, O52, O55. -/

namespace Sys2Proof.Machine

open Sys2Proof.Safety

/-! ## What steps never change, and what only their command does -/

/-- Settles O48: a marked state faults, and no effect touches the mark. -/
theorem markedStateHasNoStep : Obligations.MarkedStateHasNoStep := by
  refine ⟨fun s hm => by simp [step, takeInput, hm], fun s t h => ?_⟩
  cases stepEffect_of_step h <;> simp [rxCommit]

theorem params_of_step {s t : State} (h : step s = .next t) : t.params = s.params := by
  cases stepEffect_of_step h <;> simp [rxCommit]

/-- Settles O52: the two writes of the memory keep the form, and a reset empties it. -/
theorem stepKeepsMemoryCanonical : Obligations.StepKeepsMemoryCanonical := by
  intro s t hm h
  cases stepEffect_of_step h with
  | reset => exact List.Pairwise.nil
  | bitbuf => exact write_wf hm _ _
  | receive => exact outWrite_wf hm _
  | register => simpa using hm
  | _ => exact hm

/-- Settles O35: CONFIG sets CFG_VALID, RECEIVE sets OUT_VALID, and no other effect but a reset touches them. -/
theorem flagsSetByTheirCommandOnly : Obligations.FlagsSetByTheirCommandOnly := by
  intro s t h hr
  cases stepEffect_of_step h with
  | reset hp => exact absurd ⟨_, hp⟩ hr
  | config hp => exact ⟨.inr ⟨rfl, ⟨_, hp⟩, rfl⟩, .inl rfl⟩
  | receive hp => exact ⟨.inl rfl, .inr ⟨rfl, ⟨_, hp⟩, rfl⟩⟩
  | _ => simp

/-- Settles O36: CONFIG copies the staging registers, and no other effect but a reset touches the active ones. -/
theorem activeChangesByConfigOnly : Obligations.ActiveChangesByConfigOnly := by
  intro s t h hr
  cases stepEffect_of_step h with
  | reset hp => exact absurd ⟨_, hp⟩ hr
  | config hp => exact .inr ⟨⟨_, hp⟩, rfl, rfl, rfl, rfl, rfl⟩
  | _ => simp [SameActive, rxCommit]

/-- A delivery leaves the trace as it is, or appends its one entry to the connected slots (R91). -/
theorem deliver_trace_cases (s : State) (x : List F64) :
    (deliver s x).trace = s.trace ∨
      consumersReg s ≠ 0 ∧ (deliver s x).trace = s.trace ++ [{ mask := consumersReg s, samples := x }] := by
  rw [deliver_trace, emissionOf]
  split
  · simp
  · next hc => exact .inr ⟨hc, rfl⟩

/-- Settles O31: RECEIVE and EMIT deliver once, and no other effect but a reset touches the trace. -/
theorem traceGrowsByDeliveryOnly : Obligations.TraceGrowsByDeliveryOnly := by
  intro s t h hr
  cases stepEffect_of_step h with
  | reset hp => exact absurd ⟨_, hp⟩ hr
  | receive hp => exact (deliver_trace_cases _ _).imp_right fun ⟨hc, ht⟩ => ⟨.inl ⟨_, hp⟩, hc, _, ht⟩
  | emit hp => exact (deliver_trace_cases _ _).imp_right fun ⟨hc, ht⟩ => ⟨.inr ⟨_, hp⟩, hc, _, ht⟩
  | _ => simp

/-! ## The register words (R19, R26, R28, R29) -/

theorem statusWord_toNat (s : State) : (statusWord s).toNat =
    s.lastOpc.toNat * 2 ^ 16 + s.errcode.toNat * 2 ^ 8 + s.outValid.toNat * 2 + s.cfgValid.toNat := by
  simp only [statusWord, toNat_append_eq_add, BitVec.toNat_ofBool, BitVec.ofNat_eq_ofNat, BitVec.toNat_ofNat]
  omega

theorem maxBitsWord_toNat {p : Config.Params} (h : p.Legal) : (maxBitsWord p).toNat = p.maxBits := by
  obtain ⟨-, -, -, hb, -⟩ := h
  rw [maxBitsWord, BitVec.toNat_ofNat, Nat.mod_eq_of_lt (by omega)]

theorem maxSamplesWord_toNat {p : Config.Params} (h : p.Legal) : (maxSamplesWord p).toNat = p.maxSamples := by
  obtain ⟨-, -, -, -, -, hb, -⟩ := h
  rw [maxSamplesWord, BitVec.toNat_ofNat, Nat.mod_eq_of_lt (by omega)]

theorem paramsWord_toNat {p : Config.Params} (h : p.Legal) : (paramsWord p).toNat =
    p.profile.toNat * 2 ^ 12 + (if p.boundary = .ramp then 2 ^ 8 else 0) + p.maxConsumers := by
  obtain ⟨-, -, -, -, -, -, -, hc⟩ := h
  simp only [paramsWord, toNat_append_eq_add, BitVec.toNat_ofBool, BitVec.ofNat_eq_ofNat, BitVec.toNat_ofNat]
  cases p.boundary with
  | flat => rw [show (Config.Boundary.flat == .ramp).toNat = 0 from rfl, if_neg nofun]; omega
  | ramp => rw [show (Config.Boundary.ramp == .ramp).toNat = 1 from rfl, if_pos rfl]; omega

/-- Bit `c` of the mask is set exactly for the slots that exist. -/
theorem consumerMask_getLsbD {p : Config.Params} (h : p.Legal) (c : Nat) :
    (consumerMask p).getLsbD c = decide (c < p.maxConsumers) := by
  obtain ⟨-, -, -, -, -, -, -, hc⟩ := h
  rw [consumerMask, BitVec.getLsbD_ofNat, Nat.testBit_two_pow_sub_one, ← Bool.decide_and]
  exact decide_eq_decide.2 ⟨And.right, fun h => ⟨by omega, h⟩⟩

theorem consumersReg_getLsbD {s : State} (h : s.params.Legal) (c : Nat) :
    (consumersReg s).getLsbD c = (s.consumers.getLsbD c && decide (c < s.params.maxConsumers)) := by
  rw [consumersReg, BitVec.getLsbD_and, consumerMask_getLsbD h]

/-- Settles O33: the words' bits, one lemma for each word. -/
theorem registerFields : Obligations.RegisterFields := fun s h =>
  ⟨statusWord_toNat s, paramsWord_toNat h, fun c hc => by simp [regRead, consumersReg_getLsbD h, hc]⟩

/-- Settles O34: the three registers are views of the parameters, which no step changes. -/
theorem parameterRegistersConstant : Obligations.ParameterRegistersConstant :=
  ⟨fun s t h => by simp [regRead, params_of_step h], fun s h => ⟨maxBitsWord_toNat h, maxSamplesWord_toNat h⟩⟩

/-! ## Host accesses to a register (R37, R41) -/

/-- The window starts at P_BASE (R38). -/
@[simp] theorem offsetOf_base_add (p : Config.Params) (off : Nat) : offsetOf p (p.base + off) = some off := by
  simp [offsetOf]

theorem hostAccess_read_register {s : State} {off : Nat} {r : Reg} (ha : off % 4 = 0)
    (hr : regionOf s.params off = some (.register r)) :
    hostAccess s (.read 32 (s.params.base + off)) = .next (observe s off (regRead s r)) := by
  have := (admission_eq_ok (dir := .read)).2 ⟨rfl, ha, hr, rfl⟩
  simp [hostAccess, hostRead, this]

theorem hostAccess_write_register {s : State} {off : Nat} {r : Reg} (v : Word) (ha : off % 4 = 0)
    (hr : regionOf s.params off = some (.register r)) (hw : regWritable r = true) :
    hostAccess s (.write 32 (s.params.base + off) v) = .next (regWrite s r v) := by
  have := (admission_eq_ok (dir := .write)).2 ⟨rfl, ha, hr, hw⟩
  simp [hostAccess, hostWrite, this]

theorem hostAccess_write_cmd (s : State) (w : Word) :
    hostAccess s (.write 32 s.params.base w) = performCommand s w := by
  have := admission_eq_ok.2 ⟨rfl, rfl, (rfl : regionOf s.params 0 = _), (rfl : allows .cmd .write = true)⟩
  simp [hostAccess, hostWrite, offsetOf, this]

/-- Settles O5: the access is a CMD write, whose meaning is `performCommand`. -/
theorem stepPerformsDecodedCommand : Obligations.StepPerformsDecodedCommand := by
  intro s rest w hm hp
  have hstep : step s = performCommand (setPending s rest) w := by
    rw [step, takeInput, hp, if_neg (by simp [hm])]
    exact hostAccess_write_cmd (setPending s rest) w
  rw [hstep, performCommand]
  exact ⟨fun i hi => by rw [hi]; rfl, fun e he => by rw [he]; rfl⟩

/-- The read-write registers stand at their offsets in the map and may be written. -/
theorem mapped_of_readWriteAt {r : Reg} {off : Nat} (h : ReadWriteAt r off) (p : Config.Params) :
    off % 4 = 0 ∧ regionOf p off = some (.register r) ∧ regWritable r = true := by
  rcases h with ⟨rfl, rfl⟩ | ⟨rfl, rfl⟩ | ⟨rfl, rfl⟩ | ⟨rfl, rfl⟩ | ⟨rfl, rfl⟩ | ⟨rfl, rfl⟩ | ⟨rfl, rfl⟩ <;>
    exact ⟨rfl, rfl, rfl⟩

/-- Settles O38: the write is `regWrite`, and the read that follows finds the same offset admitted. -/
theorem registerWriteReadsBack : Obligations.RegisterWriteReadsBack := by
  intro s r off v h
  obtain ⟨ha, hr, hw⟩ := mapped_of_readWriteAt h s.params
  have hread : hostAccess (regWrite s r v) (.read 32 (s.params.base + off)) = .next (observe (regWrite s r v) off v) := by
    have := hostAccess_read_register (s := regWrite s r v) ha (by simpa using hr)
    simpa [regRead_regWrite s hw] using this
  exact ⟨regWrite s r v, hostAccess_write_register v ha hr hw, regRead_regWrite s hw v, by simp, by simp, by simp,
    by simp [SameModel], hread⟩

/-- At each offset of the map after CMD stands a register, and its value is written out in `RegisterReadsAs`. -/
theorem exists_register_at {s : State} (h : s.params.Legal) {off : Nat} (ha : off % 4 = 0) (hl : 0x004 ≤ off)
    (hu : off ≤ 0x04C) : ∃ r, regionOf s.params off = some (.register r) ∧ RegisterReadsAs s off (regRead s r) := by
  obtain ⟨k, rfl⟩ := Nat.dvd_of_mod_eq_zero ha
  have hk : 1 ≤ k ∧ k ≤ 19 := by omega
  obtain ⟨h1, h2⟩ := hk
  interval_cases k <;> refine ⟨_, rfl, ?_⟩ <;>
    simp [RegisterReadsAs, regRead, statusWord_toNat, consumersReg_getLsbD h, maxBitsWord_toNat h,
      maxSamplesWord_toNat h, paramsWord_toNat h]

/-- Settles O55: the read of a mapped register observes the register's value. -/
theorem registerReadsReturnTheirValue : Obligations.RegisterReadsReturnTheirValue := by
  intro s off h ha hl hu
  obtain ⟨r, hr, hv⟩ := exists_register_at h ha hl hu
  exact ⟨regRead s r, hv, hostAccess_read_register ha hr⟩

end Sys2Proof.Machine
end

section
/-! PROOFS. The invariant of reachable states: which operations keep it, and that every step does: O50. -/

namespace Sys2Proof.Machine

open Sys2Proof.Safety

/-! ## States that differ in no field the invariant speaks of -/

/-- Equal in every field that `StateInv` speaks of, ERRCODE apart. -/
structure SameCore (s t : State) : Prop where
  params : t.params = s.params
  cfgValid : t.cfgValid = s.cfgValid
  outValid : t.outValid = s.outValid
  active : SameActive s t
  consumers : t.consumers = s.consumers
  outlen : t.outlen = s.outlen
  mem : t.mem = s.mem
  trace : t.trace = s.trace
  faultMark : t.faultMark = s.faultMark

theorem operands_of_sameActive {s t : State} (e : SameActive s t) :
    activeAmin t = activeAmin s ∧ activeAmax t = activeAmax s ∧ activeSpb t = activeSpb s := by
  obtain ⟨-, hspb, hminLo, hminHi, hmaxLo, hmaxHi⟩ := e
  simp only [activeAmin, activeAmax, activeSpb, *, and_self]

theorem activeValid_of_sameActive {s t : State} (h : ActiveValid s) (e : SameActive s t) : ActiveValid t := by
  obtain ⟨hmin, hmax, hspb⟩ := operands_of_sameActive e
  exact ⟨by rw [hmin]; exact h.amin_finite, by rw [hmax]; exact h.amax_finite, by rw [hmin, hmax]; exact h.ordered,
    by rw [hmin, hmax]; exact h.sum_finite, by rw [hspb]; exact h.spb_pos, by rw [hspb]; exact h.spb_le⟩

theorem stateInv_of_sameCore {s t : State} (h : StateInv s) (e : SameCore s t) (he : t.errcode.toNat ≤ 8) :
    StateInv t where
  params_legal := e.params ▸ h.params_legal
  memory_wf := e.mem ▸ h.memory_wf
  memory_mapped := by simpa only [e.mem, e.params] using h.memory_mapped
  words_whole := by simpa only [e.mem, e.params] using h.words_whole
  active_valid hc := activeValid_of_sameActive (h.active_valid (e.cfgValid ▸ hc)) e.active
  errcode_le := he
  outlen_le := by simpa only [e.outlen, e.params] using h.outlen_le
  outlen_pos := by simpa only [e.outlen, e.outValid] using h.outlen_pos
  output_stored := by simpa only [e.outlen, e.mem] using h.output_stored
  consumers_legal := by simpa only [e.consumers, e.params] using h.consumers_legal
  trace_legal := by simpa only [e.trace, e.params] using h.trace_legal
  unmarked := e.faultMark ▸ h.unmarked

theorem errorCode_le (e : ErrorKind) : (errorCode e).toNat ≤ 8 := by cases e <;> decide

theorem stateInv_raise {s : State} (h : StateInv s) (e : ErrorKind) : StateInv (raise s e) :=
  stateInv_of_sameCore h (by constructor <;> simp [SameActive]) (errorCode_le e)

theorem stateInv_succeed {s : State} (h : StateInv s) : StateInv (succeed s) :=
  stateInv_of_sameCore h (by constructor <;> simp [SameActive]) (Nat.zero_le _)

theorem stateInv_setPending {s : State} (h : StateInv s) (l : List Input) : StateInv (setPending s l) :=
  stateInv_of_sameCore h (by constructor <;> simp [SameActive]) h.errcode_le

theorem stateInv_commandStart {s : State} (h : StateInv s) (rest : List Input) (w : Word) :
    StateInv (commandStart s rest w) :=
  stateInv_of_sameCore h (by constructor <;> simp [SameActive]) h.errcode_le

/-! ## Reset and CONFIG -/

/-- After reset no byte is held, nothing is connected, and no output is stored. -/
theorem stateInv_resetWith {p : Config.Params} (hp : p.Legal) : StateInv (State.resetWith p) where
  params_legal := hp
  memory_wf := List.Pairwise.nil
  memory_mapped _ hc := nomatch hc
  words_whole _ _ _ := rfl
  active_valid hc := nomatch hc
  errcode_le := Nat.zero_le _
  outlen_le := Nat.zero_le _
  outlen_pos := by simp [State.resetWith]
  output_stored a hl hu := absurd hu (by simp [State.resetWith]; omega)
  consumers_legal := BitVec.zero_and
  trace_legal _ he := nomatch he
  unmarked := rfl

theorem stateInv_resetBlock {s : State} (h : StateInv s) : StateInv (resetBlock s) :=
  stateInv_of_sameCore (stateInv_resetWith h.params_legal)
    (by constructor <;> simp [SameActive, State.resetWith, h.unmarked]) (by simp [State.resetWith])

/-- CONFIG's two checks are what R24 asks of the values it commits. -/
theorem activeValid_commitConfig {s : State} (ha : amplitudesValid (stagedAmin s) (stagedAmax s) = true)
    (hs : spbValid s.sSpb.toNat = true) : ActiveValid (commitConfig s) := by
  simp only [amplitudesValid, Bool.and_eq_true] at ha
  simp only [spbValid, Bool.and_eq_true, decide_eq_true_eq] at hs
  obtain ⟨⟨⟨hmin, hmax⟩, hlt⟩, hsum⟩ := ha
  exact ⟨hmin, hmax, hlt, hsum, hs.1, hs.2⟩

theorem stateInv_commitConfig {s : State} (h : StateInv s)
    (ha : amplitudesValid (stagedAmin s) (stagedAmax s) = true) (hs : spbValid s.sSpb.toNat = true) :
    StateInv (commitConfig s) :=
  { h with active_valid := fun _ => activeValid_commitConfig ha hs }

/-! ## Writes of the memory -/

/-- After a write exactly the bytes written before and the new ones are written. -/
theorem isSome_read_write (m : Memory) (a : Nat) (bs : List Byte) (x : Nat) :
    (Memory.read (Memory.write m a bs) x).isSome = true ↔
      (a ≤ x ∧ x < a + bs.length) ∨ (Memory.read m x).isSome = true := by
  rw [read_write]
  split
  · next hx =>
    have hlt : x - a < bs.length := by omega
    simp [hx, hlt]
  · next hx => simp [hx]

theorem writtenAlike_iff {m : Memory} {a b : Nat} :
    WrittenAlike m a b ↔ ((Memory.read m a).isSome = true ↔ (Memory.read m b).isSome = true) := Bool.eq_iff_iff

/-- A BITBUF write writes the four bytes of one word, all inside BITBUF. -/
theorem stateInv_bitbufWrite {s : State} (h : StateInv s) {off : Nat} (v : Word) (ha : off % 4 = 0)
    (hl : bitbufBase ≤ off) (hu : off < bitbufBase + s.params.maxBits / 8) : StateInv (bitbufWrite s off v) :=
  { h with
    memory_wf := write_wf h.memory_wf _ _
    memory_mapped := fun c hc => by
      obtain ⟨-, hbits, -⟩ := h.params_legal
      rcases mem_write hc with hc | hc
      · exact h.memory_mapped c hc
      · rw [length_wordBytes] at hc
        have hbase : bitbufBase = 0x1000 := rfl
        exact .inl (by rw [bitbufWrite_params]; omega)
    words_whole := fun a hal hau => by
      have hold := writtenAlike_iff.1 (h.words_whole a hal hau)
      have hword : (off ≤ a ∧ a < off + 4) ↔ (off ≤ a / 4 * 4 ∧ a / 4 * 4 < off + 4) := by omega
      rw [writtenAlike_iff, bitbufWrite_mem, isSome_read_write, isSome_read_write, length_wordBytes, hold, hword]
    active_valid := fun hc => activeValid_of_sameActive (h.active_valid hc) (by simp [SameActive])
    output_stored := fun a hal hau => (isSome_read_write _ _ _ _).2 (.inr (h.output_stored a hal hau)) }

/-- Storing an output of at least one sample that fits OUTBUF. -/
theorem stateInv_storeOutput {s : State} (h : StateInv s) {out : List F64} (hpos : 0 < out.length)
    (hle : out.length ≤ s.params.maxSamples) : StateInv (storeOutput s out) := by
  obtain ⟨-, -, -, hbits, -, hcap, -⟩ := h.params_legal
  have hlen : (storeOutput s out).outlen.toNat = out.length := by
    rw [storeOutput_outlen, BitVec.toNat_ofNat, Nat.mod_eq_of_lt (by omega)]
  have hmem (a : Nat) : (Memory.read (storeOutput s out).mem a).isSome = true ↔
      (outbufBase ≤ a ∧ a < outbufBase + 8 * out.length) ∨ (Memory.read s.mem a).isSome = true := by
    rw [storeOutput_mem, outWrite, isSome_read_write, length_flatMap_sampleBytes]
  exact { h with
    memory_wf := outWrite_wf h.memory_wf _
    memory_mapped := fun c hc => by
      rcases mem_write hc with hc | hc
      · exact h.memory_mapped c hc
      · rw [length_flatMap_sampleBytes] at hc
        exact .inr (by simp only [storeOutput_params]; omega)
    words_whole := fun a hal hau => by
      have hold := writtenAlike_iff.1 (h.words_whole a hal hau)
      have hbelow : a < outbufBase := by
        rw [storeOutput_params, bitbufBase] at hau
        rw [outbufBase]
        omega
      rw [writtenAlike_iff, hmem, hmem, hold, or_iff_right, or_iff_right] <;> omega
    active_valid := fun hc => activeValid_of_sameActive (h.active_valid hc) (by simp [SameActive])
    outlen_le := by rw [hlen]; exact hle
    outlen_pos := by rw [hlen]; simp [hpos]
    output_stored := fun a hal hau => (hmem a).2 (.inl ⟨hal, by rwa [hlen] at hau⟩) }

/-! ## Delivery and the connected slots -/

/-- A delivery of at least one sample appends a legal entry, if any. -/
theorem stateInv_deliver {s : State} (h : StateInv s) {x : List F64} (hx : x ≠ []) : StateInv (deliver s x) := by
  have hmask : consumersReg s &&& ~~~consumerMask s.params = 0 := by
    rw [consumersReg, BitVec.and_assoc, BitVec.and_not_self]
    exact BitVec.and_zero
  refine { h with
    active_valid := fun hc => activeValid_of_sameActive (h.active_valid hc) (by simp [SameActive])
    trace_legal := fun e he => ?_ }
  rcases deliver_trace_cases s x with ht | ⟨hc, ht⟩ <;> rw [ht] at he
  · exact h.trace_legal e he
  · rcases List.mem_append.1 he with he | he
    · exact h.trace_legal e he
    · obtain rfl := List.mem_singleton.1 he
      exact ⟨hc, hmask, hx⟩

theorem length_rxOutput (s : State) (sch : Scheme) (bits : List Bool) :
    (rxOutput s sch bits).length = bits.length * activeSpb s := length_modulate _ _ _ _ _ _

/-- A RECEIVE that passes its checks stores and delivers N*S samples, of which there is one at least (R75, R77). -/
theorem stateInv_rxCommit {s : State} (h : StateInv s) {sch : Scheme} {bits : List Bool} (hr : Receivable s sch bits) :
    StateInv (rxCommit s (rxOutput s sch bits)) := by
  have hpos : 0 < (rxOutput s sch bits).length := by
    rw [length_rxOutput, hr.bits_length]
    exact Nat.mul_pos hr.nonempty (h.active_valid hr.configured).spb_pos
  have hle : (rxOutput s sch bits).length ≤ s.params.maxSamples := by
    rw [length_rxOutput, hr.bits_length]
    exact hr.samples_fit
  exact stateInv_deliver (stateInv_succeed (stateInv_storeOutput h hpos hle)) (List.ne_nil_of_length_pos hpos)

theorem storedOutput_ne_nil {s : State} (h : StateInv s) (hv : s.outValid = true) : storedOutput s ≠ [] :=
  List.ne_nil_of_length_pos (by simpa [storedOutput] using h.outlen_pos.1 hv)

theorem stateInv_connectSlot {s : State} (h : StateInv s) {c : Nat} (hc : c < s.params.maxConsumers) :
    StateInv (connectSlot s c) := by
  have hslot : BitVec.twoPow 32 c &&& ~~~consumerMask s.params = 0 := by
    apply BitVec.eq_of_getLsbD_eq
    intro i hi
    rw [BitVec.getLsbD_and, BitVec.getLsbD_not, consumerMask_getLsbD h.params_legal, BitVec.getLsbD_twoPow]
    by_cases hic : c = i
    · simp [← hic, hc]
    · simp [hic]
  exact { h with
    active_valid := fun hc => activeValid_of_sameActive (h.active_valid hc) (by simp [SameActive])
    consumers_legal := by
      rw [connectSlot_consumers, connectSlot_params, BitVec.and_or_distrib_right, h.consumers_legal]
      exact congrArg (0 ||| ·) hslot }

theorem stateInv_disconnectSlot {s : State} (h : StateInv s) (c : Nat) : StateInv (disconnectSlot s c) :=
  { h with
    active_valid := fun hc => activeValid_of_sameActive (h.active_valid hc) (by simp [SameActive])
    consumers_legal := by
      rw [disconnectSlot_consumers, disconnectSlot_params, BitVec.and_assoc, BitVec.and_comm (~~~_), ← BitVec.and_assoc,
        h.consumers_legal]
      exact BitVec.zero_and }

/-- Settles O50: every effect is a composition of operations that keep the invariant. -/
theorem stepKeepsInvariant : Obligations.StepKeepsInvariant := by
  intro s t hs h
  have start := stateInv_commandStart hs
  cases stepEffect_of_step h with
  | idle => exact hs
  | reset => exact stateInv_resetBlock (stateInv_setPending hs _)
  | read => exact stateInv_of_sameCore hs (by constructor <;> simp [SameActive]) hs.errcode_le
  | register => exact stateInv_of_sameCore hs (by constructor <;> simp [SameActive]) (by simpa using hs.errcode_le)
  | bitbuf _ aligned lower upper => exact stateInv_bitbufWrite (stateInv_setPending hs _) _ aligned lower upper
  | error => exact stateInv_raise (start _ _) _
  | config _ amplitudes spb => exact stateInv_succeed (stateInv_commitConfig (start _ _) amplitudes spb)
  | receive _ hr => exact stateInv_rxCommit (start _ _) hr
  | emit _ valid => exact stateInv_succeed (stateInv_deliver (start _ _) (storedOutput_ne_nil hs valid))
  | connect _ hc => exact stateInv_succeed (stateInv_connectSlot (start _ _) hc)
  | disconnect => exact stateInv_succeed (stateInv_disconnectSlot (start _ _) _)

end Sys2Proof.Machine
end

section
/-! PROOFS. The address map and which host accesses it refuses (R37, R39, R40), and what host accesses change: O37, O39,
O43, O44. -/

namespace Sys2Proof.Machine

open Sys2Proof.Safety

/-! ## The address map (R37) -/

/-- The offsets of the register map differ, so looking one up is membership. -/
theorem lookup_registerMap_eq_some {off : Nat} {r : Region} :
    registerMap.lookup off = some r ↔ (off, r) ∈ registerMap := by
  have hlookup : ∀ c ∈ registerMap, registerMap.lookup c.1 = some c.2 := by decide
  refine ⟨fun h => ?_, hlookup _⟩
  obtain ⟨l, l', e, -⟩ := List.lookup_eq_some_iff.1 h
  simp [e]

/-- What is mapped is a register or CMD, or a word of one of the buffers. -/
theorem regionOf_cases {p : Config.Params} {off : Nat} {r : Region} (h : regionOf p off = some r) :
    (off, r) ∈ registerMap ∨
    (r = .bitbuf ∧ bitbufBase ≤ off ∧ off < bitbufBase + p.maxBits / 8) ∨
    (r = .outbuf ∧ outbufBase ≤ off ∧ off < outbufBase + 8 * p.maxSamples) := by
  by_cases hb : r = .bitbuf
  · exact .inr (.inl ⟨hb, regionOf_eq_bitbuf (hb ▸ h)⟩)
  unfold regionOf at h
  split_ifs at h with h0 h1 h2
  · exact .inl (lookup_registerMap_eq_some.1 h)
  · exact absurd (Option.some.inj h).symm hb
  · exact .inr (.inr ⟨(Option.some.inj h).symm, h2⟩)

theorem regionOf_of_bitbuf {p : Config.Params} {off : Nat} (hl : bitbufBase ≤ off)
    (hu : off < bitbufBase + p.maxBits / 8) : regionOf p off = some .bitbuf := by
  have h0 : ¬off < 0x1000 := by unfold bitbufBase at hl; omega
  rw [regionOf, if_neg h0, if_pos hu]

/-- The greatest legal BITBUF ends where OUTBUF begins (R8, R37). -/
theorem bitbuf_below_outbuf {p : Config.Params} (h : p.Legal) : bitbufBase + p.maxBits / 8 ≤ outbufBase := by
  obtain ⟨-, -, -, hbits, -⟩ := h
  unfold bitbufBase outbufBase
  omega

theorem regionOf_of_outbuf {p : Config.Params} (h : p.Legal) {off : Nat} (hl : outbufBase ≤ off)
    (hu : off < outbufBase + 8 * p.maxSamples) : regionOf p off = some .outbuf := by
  have h0 : ¬off < 0x1000 := by unfold outbufBase at hl; omega
  have h1 : ¬off < bitbufBase + p.maxBits / 8 := by have := bitbuf_below_outbuf h; omega
  rw [regionOf, if_neg h0, if_neg h1, if_pos ⟨hl, hu⟩]

/-- A writable register of the map stands at its one offset. -/
theorem readWriteAt_of_mem_registerMap {r : Reg} {off : Nat} (h : (off, .register r) ∈ registerMap)
    (hw : regWritable r = true) : ReadWriteAt r off := by
  cases r <;> simp [registerMap, regWritable, ReadWriteAt] at h hw ⊢ <;> exact h

theorem readWriteAt_of_regionOf {p : Config.Params} {r : Reg} {off : Nat} (h : regionOf p off = some (.register r))
    (hw : regWritable r = true) : ReadWriteAt r off := by
  rcases regionOf_cases h with hm | ⟨hr, -⟩ | ⟨hr, -⟩
  · exact readWriteAt_of_mem_registerMap hm hw
  · cases hr
  · cases hr

theorem readWriteAt_unique {r : Reg} {off off' : Nat} (h : ReadWriteAt r off) (h' : ReadWriteAt r off') :
    off = off' := by
  cases r <;> simp [ReadWriteAt] at h h' <;> omega

/-! ## Admission (R39) -/

/-- The admitted reads are the 32-bit reads of readable offsets. -/
theorem admitted_read_iff {s : State} (h : s.params.Legal) {width off : Nat} :
    (∃ r, admission s.params .read width off = .ok r) ↔ width = 32 ∧ Readable s.params off := by
  simp only [admission_eq_ok]
  constructor
  · rintro ⟨r, hw, ha, hr, hd⟩
    refine ⟨hw, ha, ?_⟩
    rcases regionOf_cases hr with hm | ⟨-, hb⟩ | ⟨-, hb⟩
    · have hmap : ∀ c ∈ registerMap, allows c.2 .read = true → 0x004 ≤ c.1 ∧ c.1 ≤ 0x04C := by decide
      exact .inl (hmap _ hm hd)
    · exact .inr (.inl hb)
    · exact .inr (.inr hb)
  · rintro ⟨hw, ha, ⟨hl, hu⟩ | ⟨hl, hu⟩ | ⟨hl, hu⟩⟩
    · obtain ⟨r, hr, -⟩ := exists_register_at h ha hl hu
      exact ⟨_, hw, ha, hr, rfl⟩
    · exact ⟨_, hw, ha, regionOf_of_bitbuf hl hu, rfl⟩
    · exact ⟨_, hw, ha, regionOf_of_outbuf h hl hu, rfl⟩

/-- The admitted writes are the 32-bit writes of writable offsets. -/
theorem admitted_write_iff {p : Config.Params} {width off : Nat} :
    (∃ r, admission p .write width off = .ok r) ↔ width = 32 ∧ Writable p off := by
  simp only [admission_eq_ok]
  constructor
  · rintro ⟨r, hw, ha, hr, hd⟩
    refine ⟨hw, ha, ?_⟩
    cases r with
    | cmd => exact .inl (regionOf_eq_cmd hr)
    | register r => exact .inr (.inl ⟨r, readWriteAt_of_regionOf hr hd⟩)
    | bitbuf => exact .inr (.inr (regionOf_eq_bitbuf hr))
    | outbuf => cases hd
  · rintro ⟨hw, ha, rfl | ⟨r, hr⟩ | ⟨hl, hu⟩⟩
    · exact ⟨.cmd, hw, rfl, rfl, rfl⟩
    · obtain ⟨-, hmap, hwr⟩ := mapped_of_readWriteAt hr p
      exact ⟨_, hw, ha, hmap, hwr⟩
    · exact ⟨_, hw, ha, regionOf_of_bitbuf hl hu, rfl⟩

/-! ## Refusals (R40) -/

/-- Every command has a meaning: it ends in a next state or in the model fault. -/
theorem exec_ne_refused (i : Instr) (s : State) (e : Refusal) : exec i s ≠ .refused e := by
  cases i with
  | config => simp only [exec, execConfig]; split_ifs <;> nofun
  | receive =>
    simp only [exec, execReceive]
    split
    · nofun
    · split <;> nofun
  | emit => simp only [exec, execEmit]; split_ifs <;> nofun
  | connect c => simp only [exec, execConnect]; split_ifs <;> nofun
  | disconnect c => simp only [exec, execDisconnect]; split_ifs <;> nofun

theorem performCommand_ne_refused (s : State) (w : Word) (e : Refusal) : performCommand s w ≠ .refused e := by
  unfold performCommand
  split
  · nofun
  · exact exec_ne_refused _ _ _

theorem hostRead_refused_iff {s : State} {width off : Nat} :
    (∃ e, hostRead s width off = .refused e) ↔ ¬∃ r, admission s.params .read width off = .ok r := by
  unfold hostRead
  cases ha : admission s.params .read width off with
  | error e => simp
  | ok r =>
    cases r with
    | cmd =>
      obtain ⟨-, -, -, hd⟩ := admission_eq_ok.1 ha
      cases hd
    | _ => simp

theorem hostWrite_refused_iff {s : State} {width off : Nat} {v : Word} :
    (∃ e, hostWrite s width off v = .refused e) ↔ ¬∃ r, admission s.params .write width off = .ok r := by
  unfold hostWrite
  cases ha : admission s.params .write width off with
  | error e => simp
  | ok r =>
    cases r with
    | outbuf =>
      obtain ⟨-, -, -, hd⟩ := admission_eq_ok.1 ha
      cases hd
    | cmd => simp [performCommand_ne_refused]
    | _ => simp

/-- Settles O37: an access is refused exactly if it is not admitted, since every command has a meaning. -/
theorem accessesRefusedExactly : Obligations.AccessesRefusedExactly := by
  intro s width off addr v h
  refine ⟨?_, ?_, fun hlt => ?_⟩
  · rw [← admitted_read_iff h, ← hostRead_refused_iff]
    simp [hostAccess]
  · rw [← admitted_write_iff, ← hostWrite_refused_iff (v := v)]
    simp [hostAccess]
  · have hoff : offsetOf s.params addr = none := if_neg (Nat.not_le.2 hlt)
    simp [hostAccess, hoff]

/-! ## What host accesses change -/

theorem offsetOf_eq_some {p : Config.Params} {addr off : Nat} (h : offsetOf p addr = some off) :
    addr = p.base + off := by
  unfold offsetOf at h
  split_ifs at h with hb
  have := Option.some.inj h
  omega

theorem hostAccess_read_cases {s t : State} {width addr : Nat} (h : hostAccess s (.read width addr) = .next t) :
    ∃ off, addr = s.params.base + off ∧ hostRead s width off = .next t := by
  simp only [hostAccess] at h
  split at h
  · cases h
  · next off ho => exact ⟨off, offsetOf_eq_some ho, h⟩

theorem hostAccess_write_cases {s t : State} {width addr : Nat} {v : Word}
    (h : hostAccess s (.write width addr v) = .next t) :
    ∃ off, addr = s.params.base + off ∧ hostWrite s width off v = .next t := by
  simp only [hostAccess] at h
  split at h
  · cases h
  · next off ho => exact ⟨off, offsetOf_eq_some ho, h⟩

/-- Settles O43: a read that completes only observes. -/
theorem readsHaveNoSideEffect : Obligations.ReadsHaveNoSideEffect := by
  intro s t width addr h
  obtain ⟨off, -, hr⟩ := hostAccess_read_cases h
  obtain ⟨v, rfl⟩ := hostRead_cases hr
  exact ⟨_, rfl⟩

/-- No effect but a reset and a write of a register touches the read-write registers. -/
theorem sameStaging_of_stepEffect {s t : State} (h : StepEffect s t) (hr : ¬ResetNext s) :
    SameStaging s t ∨ ∃ rest off r v, s.pending = .access (.write 32 (s.params.base + off) v) :: rest ∧
      ReadWriteAt r off ∧ t = regWrite (setPending s rest) r v := by
  cases h with
  | reset hp => exact absurd ⟨_, hp⟩ hr
  | register hp hmap hw => exact .inr ⟨_, _, _, _, hp, readWriteAt_of_regionOf hmap hw, rfl⟩
  | _ => exact .inl (by simp [SameStaging, rxCommit])

theorem regRead_of_sameStaging {s t : State} (h : SameStaging s t) {r : Reg} {off : Nat} (hr : ReadWriteAt r off) :
    regRead t r = regRead s r := by
  obtain ⟨hsch, hspb, hminLo, hminHi, hmaxLo, hmaxHi, hlen⟩ := h
  rcases hr with ⟨rfl, -⟩ | ⟨rfl, -⟩ | ⟨rfl, -⟩ | ⟨rfl, -⟩ | ⟨rfl, -⟩ | ⟨rfl, -⟩ | ⟨rfl, -⟩ <;> assumption

theorem regRead_setPending (s : State) (l : List Input) (r : Reg) : regRead (setPending s l) r = regRead s r := by
  cases r <;> rfl

/-- Settles O39: a register write stores its value in its register, which stands at one offset. -/
theorem stagingChangesByOwnWriteOnly : Obligations.StagingChangesByOwnWriteOnly := by
  intro s t r off hat h hr
  rcases sameStaging_of_stepEffect (stepEffect_of_step h) hr with hsame | ⟨rest, off', r', v, hp, hat', rfl⟩
  · exact .inl (regRead_of_sameStaging hsame hat)
  · obtain ⟨-, -, hw⟩ := mapped_of_readWriteAt hat' s.params
    rw [regRead_regWrite _ hw, regRead_setPending]
    by_cases e : r = r'
    · subst e
      exact .inr ⟨rest, by rw [if_pos rfl, hp, readWriteAt_unique hat hat']⟩
    · exact .inl (if_neg e)

/-! ## The stored output under a host write (R55) -/

theorem outSamplesFrom_congr {m m' : Memory} {a : Nat} (h : ∀ x, a ≤ x → Memory.read m x = Memory.read m' x)
    (n : Nat) : outSamplesFrom m a n = outSamplesFrom m' a n := by
  rw [outSamplesFrom_eq, outSamplesFrom_eq]
  refine List.map_congr_left fun j _ => sampleOfBytes_congr fun i _ => ?_
  rw [h _ (by omega)]

/-- A word of BITBUF lies below OUTBUF whole. -/
theorem storedOutput_bitbufWrite {s : State} (h : s.params.Legal) {off : Nat} (v : Word) (ha : off % 4 = 0)
    (hu : off < bitbufBase + s.params.maxBits / 8) : storedOutput (bitbufWrite s off v) = storedOutput s := by
  have hword : off + 4 ≤ outbufBase := by
    have := bitbuf_below_outbuf h
    unfold outbufBase at this ⊢
    omega
  refine outSamplesFrom_congr (fun x hx => read_write_of_notMem _ _ _ (.inr ?_)) _
  rw [length_wordBytes]
  omega

/-- Settles O44: the write is that of a register or of a BITBUF word. -/
theorem hostWritesLeaveOutput : Obligations.HostWritesLeaveOutput := by
  intro s t addr v hlegal hne h
  obtain ⟨off, rfl, hx⟩ := hostAccess_write_cases h
  obtain ⟨-, ha, ⟨rfl, -⟩ | ⟨r, -, -, rfl⟩ | ⟨-, hu, rfl⟩⟩ := hostWrite_cases hx
  · exact absurd rfl hne
  · simp [storedOutput, SameActive]
  · exact ⟨rfl, storedOutput_bitbufWrite hlegal v ha hu, rfl, rfl, ⟨rfl, rfl, rfl, rfl, rfl, rfl⟩, rfl⟩

end Sys2Proof.Machine
end

section
/-! PROOFS. The words of BITBUF and OUTBUF as the host accesses them (R43 to R47), and what a RECEIVE reads: O11,
O40, O41, O42, O45. -/

namespace Sys2Proof.Machine

open Sys2Proof.Safety

/-! ## Host accesses to a buffer -/

theorem hostAccess_write_bitbuf {s : State} {off : Nat} (v : Word) (ha : off % 4 = 0) (hl : bitbufBase ≤ off)
    (hu : off < bitbufBase + s.params.maxBits / 8) :
    hostAccess s (.write 32 (s.params.base + off) v) = .next (bitbufWrite s off v) := by
  have := (admission_eq_ok (dir := .write)).2 ⟨rfl, ha, regionOf_of_bitbuf hl hu, rfl⟩
  simp [hostAccess, hostWrite, this]

theorem hostAccess_read_bitbuf {s : State} {off : Nat} (ha : off % 4 = 0) (hl : bitbufBase ≤ off)
    (hu : off < bitbufBase + s.params.maxBits / 8) :
    hostAccess s (.read 32 (s.params.base + off)) = .next (observe s off (wordRead s.mem s.draws off)) := by
  have := (admission_eq_ok (dir := .read)).2 ⟨rfl, ha, regionOf_of_bitbuf hl hu, rfl⟩
  simp [hostAccess, hostRead, this]

theorem hostAccess_read_outbuf {s : State} (h : s.params.Legal) {off : Nat} (ha : off % 4 = 0) (hl : outbufBase ≤ off)
    (hu : off < outbufBase + 8 * s.params.maxSamples) :
    hostAccess s (.read 32 (s.params.base + off)) = .next (observe s off (outbufWord s off)) := by
  have := (admission_eq_ok (dir := .read)).2 ⟨rfl, ha, regionOf_of_outbuf h hl hu, rfl⟩
  simp [hostAccess, hostRead, this]

/-- Word `w` of BITBUF lies at an aligned offset inside BITBUF. -/
theorem bitbuf_word_mapped {p : Config.Params} {w : Nat} (hw : w < p.maxBits / 32) :
    (bitbufBase + 4 * w) % 4 = 0 ∧ bitbufBase ≤ bitbufBase + 4 * w ∧
      bitbufBase + 4 * w < bitbufBase + p.maxBits / 8 := by
  unfold bitbufBase
  omega

/-- Settles O40: the write stores the four bytes of the word. -/
theorem bitbufWriteLaysOutBits : Obligations.BitbufWriteLaysOutBits := by
  intro s w v hw
  obtain ⟨ha, hl, hu⟩ := bitbuf_word_mapped hw
  refine ⟨bitbufWrite s (bitbufBase + 4 * w) v, ?_, bitRead_write_word s.mem w v, fun a h => ?_, rfl⟩
  · rw [Nat.add_assoc]
    exact hostAccess_write_bitbuf v ha hl hu
  · exact read_write_of_notMem _ _ _ (by rw [length_wordBytes]; exact h)

/-! ## The bits of a word that is read -/

theorem getLsbD_wordOfBytes (b : Nat → Byte) {q r : Nat} (hq : q < 4) (hr : r < 8) :
    (wordOfBytes b).getLsbD (8 * q + r) = (b q).getLsbD r := by
  simp only [wordOfBytes, BitVec.getLsbD_append]
  interval_cases q <;> simp (disch := omega) only [if_pos, if_neg] <;> congr 1 <;> omega

theorem getLsbD_wordRead (m : Memory) (draw off : Nat) {q r : Nat} (hq : q < 4) (hr : r < 8) :
    (wordRead m draw off).getLsbD (8 * q + r) =
      ((Memory.read m (off + q)).getD (Config.freeByte draw (off + q))).getLsbD r := getLsbD_wordOfBytes _ hq hr

/-- A written bit of BITBUF stands at its place in its word (R43, R44). -/
theorem getLsbD_wordRead_of_bitRead {m : Memory} {w b : Nat} {x : Bool} (hb : b < 32)
    (h : bitRead m (32 * w + b) = some x) (draw : Nat) :
    (wordRead m draw (bitbufBase + 4 * w)).getLsbD b = x := by
  have hbyte : bitbufBase + (32 * w + b) / 8 = bitbufBase + 4 * w + b / 8 := by omega
  have hbit : (32 * w + b) % 8 = b % 8 := by omega
  obtain ⟨y, hy, rfl⟩ := Option.map_eq_some_iff.1 h
  have hword := getLsbD_wordRead m draw (bitbufBase + 4 * w) (q := b / 8) (r := b % 8) (by omega) (by omega)
  rwa [Nat.div_add_mod, ← hbyte, hy, ← hbit] at hword

/-- Settles O41: the read observes the word, and a written bit is no free draw. -/
theorem bitbufReadReturnsBits : Obligations.BitbufReadReturnsBits := by
  intro s w hw
  obtain ⟨ha, hl, hu⟩ := bitbuf_word_mapped hw
  refine ⟨wordRead s.mem s.draws (bitbufBase + 4 * w), ?_, fun b x hb h => getLsbD_wordRead_of_bitRead hb h _⟩
  rw [Nat.add_assoc]
  exact hostAccess_read_bitbuf ha hl hu

/-! ## The halves of a sample (R46) -/

theorem sampleOfBytes_eq_append (b : Nat → Byte) :
    sampleOfBytes b = wordOfBytes (fun i => b (4 + i)) ++ wordOfBytes b := by
  apply BitVec.eq_of_toNat_eq
  simp only [sampleOfBytes, wordOfBytes, toNat_append_eq_add]
  simp only [Nat.reduceAdd]
  omega

theorem extractLsb'_sampleOfBytes (b : Nat → Byte) {h : Nat} (hh : h < 2) :
    (sampleOfBytes b).extractLsb' (32 * h) 32 = wordOfBytes (fun i => b (4 * h + i)) := by
  rw [sampleOfBytes_eq_append]
  interval_cases h
  · simpa using BitVec.extractLsb'_append_eq_right
  · exact BitVec.extractLsb'_append_eq_left

/-- The word read at a half of a sample whose bytes are written is that half (R47). -/
theorem wordRead_eq_extractLsb'_outSample {m : Memory} {a h : Nat} (hh : h < 2)
    (hw : ∀ i, i < 8 → (Memory.read m (a + i)).isSome = true) (draw : Nat) :
    wordRead m draw (a + 4 * h) = (outSample m a).extractLsb' (32 * h) 32 := by
  rw [outSample, extractLsb'_sampleOfBytes _ hh]
  refine wordOfBytes_congr fun i hi => ?_
  obtain ⟨x, hx⟩ := Option.isSome_iff_exists.1 (hw (4 * h + i) (by omega))
  rw [Nat.add_assoc, hx]
  rfl

/-- Settles O42: the invariant says that every byte of a sample below OUTLEN is written. -/
theorem outbufReadReturnsHalves : Obligations.OutbufReadReturnsHalves := by
  intro s j h hs hj hh
  have hoff : outbufBase + 8 * j + 4 * h = 0x10000 + 8 * j + 4 * h := rfl
  refine ⟨outbufWord s (outbufBase + 8 * j + 4 * h), ?_, fun hv hlt => ?_⟩
  · rw [Nat.add_assoc, Nat.add_assoc, ← Nat.add_assoc 0x10000, ← hoff]
    exact hostAccess_read_outbuf hs.params_legal (by omega) (by omega) (by omega)
  · have hsample : (outbufBase + 8 * j + 4 * h - outbufBase) / 8 = j := by omega
    rw [outbufWord, hsample, if_pos ⟨hv, hlt⟩]
    exact wordRead_eq_extractLsb'_outSample hh (fun i hi => hs.output_stored _ (by omega) (by omega)) _

/-! ## What a RECEIVE answers (R45, R74, R75) -/

section
variable {s : State} {sch : Scheme}

theorem execReceive_of_error {e : ErrorKind} (h : rxCheck s = .error e) : execReceive s = .next (raise s e) := by
  simp [execReceive, h]

theorem execReceive_of_unwritten (h : rxCheck s = .ok sch) (hb : readBits s.mem 0 (inputBits s) = none) :
    execReceive s = .fault .unwrittenInput := by
  simp [execReceive, h, hb]

theorem execReceive_of_written {bits : List Bool} (h : rxCheck s = .ok sch)
    (hb : readBits s.mem 0 (inputBits s) = some bits) :
    execReceive s = .next (rxCommit s (rxOutput s sch bits)) := by
  simp [execReceive, h, hb, rxOutput]

theorem execReceive_fault_iff (h : rxCheck s = .ok sch) :
    execReceive s = .fault .unwrittenInput ↔ readBits s.mem 0 (inputBits s) = none := by
  cases hb : readBits s.mem 0 (inputBits s) with
  | none => simp [execReceive_of_unwritten h hb]
  | some bits => simp [execReceive_of_written h hb]

end

theorem exists_scheme_of_le_two {code : Nat} (h : code ≤ 2) : ∃ sch, schemeOf code = some sch := by
  interval_cases code <;> exact ⟨_, rfl⟩

/-- Settles O11: RECEIVE faults where `readBits` has no answer. -/
theorem receiveFaultsOnUnwrittenInput : Obligations.ReceiveFaultsOnUnwrittenInput := by
  intro s hcfg hpos hcode hbits hsamples
  obtain ⟨sch, hsch⟩ := exists_scheme_of_le_two hcode
  have hok : rxCheck s = .ok sch := rxCheck_eq_ok.2 ⟨hcfg, hpos, hsch, hbits, hsamples⟩
  have hfault : exec .receive s = .fault .unwrittenInput ↔ _ := execReceive_fault_iff hok
  rw [hfault, readBits_eq_none]
  simp only [Nat.zero_add, inputBits]

/-- Settles O45: the checks, the bits and the output of a RECEIVE are no views of the staging registers. -/
theorem receiveIgnoresStaging : Obligations.ReceiveIgnoresStaging := by
  intro s sch spb minLo minHi maxLo maxHi
  cases hc : rxCheck s with
  | error e =>
    have h : exec .receive s = _ := execReceive_of_error hc
    rw [h]
    exact ⟨fun t ht => by cases ht; exact execReceive_of_error hc, nofun⟩
  | ok scheme =>
    cases hb : readBits s.mem 0 (inputBits s) with
    | none =>
      have h : exec .receive s = _ := execReceive_of_unwritten hc hb
      rw [h]
      exact ⟨nofun, fun _ => execReceive_of_unwritten hc hb⟩
    | some bits =>
      have h : exec .receive s = _ := execReceive_of_written hc hb
      rw [h]
      exact ⟨fun t ht => by cases ht; exact execReceive_of_written hc hb, nofun⟩

end Sys2Proof.Machine
end

section
/-! PROOFS. Decoding and encoding are inverse to each other, and the CMD values that R62 calls illegal are those that
are no encoding: O1, O2, O3, O4. -/

namespace Sys2Proof.Machine

open Sys2Proof.Safety

/-! ## The fields of a command word (R57, R58) -/

@[simp] theorem rsvdField_encode (i : Instr) : rsvdField (encode i) = 0 := (Laws.ReservedBitsZero.fields _ _).1

@[simp] theorem opcField_encode (i : Instr) : opcField (encode i) = opcodeOf i := (Laws.ReservedBitsZero.fields _ _).2

theorem encode_toNat (i : Instr) : (encode i).toNat = (argumentOf i).toNat * 256 + (opcodeOf i).toNat := by
  rw [encode, toNat_append_eq_add, toNat_append_eq_add]
  simp

@[simp] theorem argField_encode (i : Instr) : argField (encode i) = argumentOf i := by
  apply BitVec.eq_of_toNat_eq
  rw [argField, BitVec.extractLsb'_toNat, encode_toNat, Nat.shiftRight_eq_div_pow]
  omega

/-! ## Decoding inverts encoding (R57 to R59) -/

/-- The 8 bits of the argument field hold the slot of a well-formed command. -/
theorem toNat_ofNat_of_slot {c : Nat} (h : c ≤ 255) : (BitVec.ofNat 8 c).toNat = c :=
  Nat.mod_eq_of_lt (Nat.lt_succ_of_le h)

theorem decode_encode {i : Instr} (h : i.WellFormed) : decode (encode i) = .ok i := by
  cases i with
  | config => rfl
  | receive => rfl
  | emit => rfl
  | connect c => simp [decode, opcodeOf, argumentOf, toNat_ofNat_of_slot (of_decide_eq_true h)]
  | disconnect c => simp [decode, opcodeOf, argumentOf, toNat_ofNat_of_slot (of_decide_eq_true h)]

/-- Settles O1: the decoder reads the three fields that the encoder wrote. -/
theorem decodeInvertsEncode : Obligations.DecodeInvertsEncode := fun _ => decode_encode

/-- Every encoding is that of a well-formed command: the argument field keeps the slot modulo 256. -/
theorem exists_wellFormed_encode_eq (i : Instr) : ∃ j : Instr, j.WellFormed ∧ encode j = encode i := by
  have hmod (c : Nat) : BitVec.ofNat 8 (c % 256) = BitVec.ofNat 8 c := BitVec.eq_of_toNat_eq (by simp)
  have hle (c : Nat) : c % 256 ≤ 255 := Nat.le_of_lt_succ (Nat.mod_lt _ (by decide))
  cases i with
  | connect c => exact ⟨.connect (c % 256), decide_eq_true (hle c), by simp only [encode, argumentOf, opcodeOf, hmod]⟩
  | disconnect c =>
    exact ⟨.disconnect (c % 256), decide_eq_true (hle c), by simp only [encode, argumentOf, opcodeOf, hmod]⟩
  | _ => exact ⟨_, rfl, rfl⟩

/-- A word decodes exactly to the well-formed command that it encodes. -/
theorem decode_eq_ok {w : Word} {i : Instr} : decode w = .ok i ↔ i.WellFormed ∧ encode i = w := by
  refine ⟨fun h => ⟨?_, encode_of_decode h⟩, fun ⟨hi, hw⟩ => hw ▸ decode_encode hi⟩
  obtain ⟨j, hj, he⟩ := exists_wellFormed_encode_eq i
  have hji : decode w = .ok j := by rw [← encode_of_decode h, ← he, decode_encode hj]
  obtain rfl : i = j := Except.ok.inj (h.symm.trans hji)
  exact hj

/-- Settles O2: the words that decode are the encodings of the well-formed commands. -/
theorem encodeInvertsDecode : Obligations.EncodeInvertsDecode := fun _ _ => decode_eq_ok.1

/-- Settles O3: each word is the encoding of its command. -/
theorem specCommandWordsDecode : Obligations.SpecCommandWordsDecode :=
  ⟨decode_encode (i := .config) rfl, decode_encode (i := .receive) rfl, decode_encode (i := .emit) rfl,
    decode_encode (i := .connect 2) rfl, decode_encode (i := .disconnect 1) rfl⟩

/-! ## The illegal CMD values (R62) -/

/-- The opcodes run from 1 to 5, and below 4 there is no argument (R58). -/
theorem opcodeOf_bounds (i : Instr) : 1 ≤ (opcodeOf i).toNat ∧ (opcodeOf i).toNat ≤ 5 ∧
    ((opcodeOf i).toNat ≤ 3 → (argumentOf i).toNat = 0) := by
  cases i <;> simp [opcodeOf, argumentOf]

theorem not_illegalWord_encode (i : Instr) : ¬IllegalWord (encode i) := by
  obtain ⟨hlow, hhigh, hnoArg⟩ := opcodeOf_bounds i
  have harg := (argumentOf i).isLt
  rw [IllegalWord, encode_toNat]
  omega

theorem encode_connect_toNat {c : Nat} (h : c ≤ 255) : (encode (.connect c)).toNat = c * 256 + 4 := by
  rw [encode_toNat, argumentOf, toNat_ofNat_of_slot h]
  rfl

theorem encode_disconnect_toNat {c : Nat} (h : c ≤ 255) : (encode (.disconnect c)).toNat = c * 256 + 5 := by
  rw [encode_toNat, argumentOf, toNat_ofNat_of_slot h]
  rfl

/-- A CMD value that R62 does not call illegal has the opcode of a command, and the argument is 0 or a slot. -/
theorem exists_encode_eq {w : Word} (h : ¬IllegalWord w) : ∃ i : Instr, i.WellFormed ∧ encode i = w := by
  unfold IllegalWord at h
  have hslot : w.toNat / 256 ≤ 255 := by omega
  have hopc : w.toNat = 1 ∨ w.toNat = 2 ∨ w.toNat = 3 ∨ w.toNat % 256 = 4 ∨ w.toNat % 256 = 5 := by omega
  rcases hopc with hw | hw | hw | hw | hw
  · exact ⟨.config, rfl, BitVec.eq_of_toNat_eq hw.symm⟩
  · exact ⟨.receive, rfl, BitVec.eq_of_toNat_eq hw.symm⟩
  · exact ⟨.emit, rfl, BitVec.eq_of_toNat_eq hw.symm⟩
  · refine ⟨.connect (w.toNat / 256), decide_eq_true hslot, BitVec.eq_of_toNat_eq ?_⟩
    rw [encode_connect_toNat hslot]
    omega
  · refine ⟨.disconnect (w.toNat / 256), decide_eq_true hslot, BitVec.eq_of_toNat_eq ?_⟩
    rw [encode_disconnect_toNat hslot]
    omega

theorem exists_decode_error {w : Word} (h : IllegalWord w) : ∃ e, decode w = .error e := by
  cases hd : decode w with
  | error e => exact ⟨e, rfl⟩
  | ok i => exact absurd (encode_of_decode hd ▸ h) (not_illegalWord_encode i)

/-- The write of an illegal CMD value (R62). -/
theorem performCommand_of_illegalWord (s : State) {w : Word} (h : IllegalWord w) :
    performCommand s w = .next (raise (setLastOpc s (opcField w)) .illegalCommand) := by
  obtain ⟨e, he⟩ := exists_decode_error h
  rw [performCommand, he]

/-- The write of a command word performs its command. -/
theorem performCommand_encode (s : State) {i : Instr} (h : i.WellFormed) :
    performCommand s (encode i) = exec i (setLastOpc s (opcodeOf i)) := by
  rw [performCommand, decode_encode h, opcField_encode]

/-- A command word with opcode 4 or 5 whose slot does not exist (R62). -/
theorem performCommand_of_absent_slot {s : State} {w : Word} (h : ¬IllegalWord w) (hopc : 4 ≤ w.toNat % 256)
    (hslot : s.params.maxConsumers ≤ w.toNat / 256) :
    performCommand s w = .next (raise (setLastOpc s (opcField w)) .invalidConsumer) := by
  obtain ⟨i, hi, rfl⟩ := exists_encode_eq h
  rw [performCommand_encode s hi, opcField_encode]
  cases i with
  | config => exact absurd hopc (by decide)
  | receive => exact absurd hopc (by decide)
  | emit => exact absurd hopc (by decide)
  | connect c =>
    rw [encode_connect_toNat (of_decide_eq_true hi)] at hslot
    exact if_pos (show s.params.maxConsumers ≤ c by omega)
  | disconnect c =>
    rw [encode_disconnect_toNat (of_decide_eq_true hi)] at hslot
    exact if_pos (show s.params.maxConsumers ≤ c by omega)

/-- Settles O4: the values that R62 does not call illegal are the command words, so these decode and the others raise
IllegalCommand. -/
theorem illegalWordsRaiseIllegalCommand : Obligations.IllegalWordsRaiseIllegalCommand := by
  refine fun s w => ⟨performCommand_of_illegalWord s, fun h => ?_, performCommand_of_absent_slot⟩
  obtain ⟨i, hi, rfl⟩ := exists_encode_eq h
  exact ⟨i, decode_encode hi⟩

end Sys2Proof.Machine
end

section
/-! PROOFS. CONFIG (R68 to R73): how it ends under each outcome of its two checks: O6, O7, O8, O9. -/

namespace Sys2Proof.Machine

open Sys2Proof.Safety

/-! ## The two checks (R69, R70) -/

theorem amplitudesValid_eq_true {amin amax : F64} : amplitudesValid amin amax = true ↔
    amin.isFinite = true ∧ amax.isFinite = true ∧ F64.lt amin amax = true ∧
      F64.isFinite (F64.add amax amin) = true := by
  simp only [amplitudesValid, Bool.and_eq_true, and_assoc]

theorem spbValid_eq_true {S : Nat} : spbValid S = true ↔ 1 ≤ S ∧ S ≤ 2 ^ 31 - 1 := by
  simp only [spbValid, Bool.and_eq_true, decide_eq_true_eq]

theorem stagedValid_iff {s : State} : StagedValid s ↔
    amplitudesValid (stagedAmin s) (stagedAmax s) = true ∧ spbValid s.sSpb.toNat = true := by
  rw [amplitudesValid_eq_true, spbValid_eq_true]
  exact ⟨fun ⟨hmin, hmax, hlt, hsum, hpos, hle⟩ => ⟨⟨hmin, hmax, hlt, hsum⟩, hpos, hle⟩,
    fun ⟨⟨hmin, hmax, hlt, hsum⟩, hpos, hle⟩ => ⟨hmin, hmax, hlt, hsum, hpos, hle⟩⟩

/-! ## How CONFIG ends (R68, R72) -/

section
variable {s : State}

theorem execConfig_of_invalid_amplitudes (ha : ¬amplitudesValid (stagedAmin s) (stagedAmax s) = true) :
    execConfig s = .next (raise s .invalidAmplitudeRange) :=
  if_pos (Bool.eq_false_of_not_eq_true ha)

theorem execConfig_of_invalid_spb (ha : amplitudesValid (stagedAmin s) (stagedAmax s) = true)
    (hs : ¬spbValid s.sSpb.toNat = true) : execConfig s = .next (raise s .invalidSamplesPerBit) := by
  simp [execConfig, ha, hs]

theorem execConfig_of_stagedValid (h : StagedValid s) : execConfig s = .next (succeed (commitConfig s)) := by
  obtain ⟨ha, hs⟩ := stagedValid_iff.1 h
  simp [execConfig, ha, hs]

theorem execConfig_of_not_stagedValid (h : ¬StagedValid s) : ∃ e, execConfig s = .next (raise s e) := by
  by_cases ha : amplitudesValid (stagedAmin s) (stagedAmax s) = true
  · exact ⟨_, execConfig_of_invalid_spb ha fun hs => h (stagedValid_iff.2 ⟨ha, hs⟩)⟩
  · exact ⟨_, execConfig_of_invalid_amplitudes ha⟩

end

/-! ## The statements -/

/-- Settles O6: CONFIG commits if the staged parameters are valid, and otherwise raises an error. -/
theorem configCommitsStaging : Obligations.ConfigCommitsStaging := by
  refine fun s => ⟨execConfig_of_stagedValid, fun h => ?_⟩
  obtain ⟨e, he⟩ := execConfig_of_not_stagedValid h
  exact ⟨_, he, by simp [SameActive], raise_cfgValid s e⟩

/-- Settles O7: with valid amplitudes CONFIG ends by the samplesPerBit check, with error 4, or commits. -/
theorem configChecksAmplitudes : Obligations.ConfigChecksAmplitudes := by
  refine fun s => ⟨⟨rfl, rfl⟩, fun h => execConfig_of_invalid_amplitudes (mt amplitudesValid_eq_true.1 h),
    fun hmin hmax hlt hsum => ?_⟩
  have ha := amplitudesValid_eq_true.2 ⟨hmin, hmax, hlt, hsum⟩
  by_cases hs : spbValid s.sSpb.toNat = true
  · exact ⟨_, execConfig_of_stagedValid (stagedValid_iff.2 ⟨ha, hs⟩), by simp⟩
  · exact ⟨_, execConfig_of_invalid_spb ha hs, by simp [errorCode]⟩

/-- Settles O8: with valid amplitudes the samplesPerBit check decides between error 4 and the commit. -/
theorem configChecksSamplesPerBit : Obligations.ConfigChecksSamplesPerBit := by
  intro s hmin hmax hlt hsum
  have ha := amplitudesValid_eq_true.2 ⟨hmin, hmax, hlt, hsum⟩
  refine ⟨fun h => execConfig_of_invalid_spb ha (mt spbValid_eq_true.1 h), fun hpos hle => ?_⟩
  exact ⟨_, execConfig_of_stagedValid ⟨hmin, hmax, hlt, hsum, hpos, hle⟩, by simp⟩

/-- Settles O9: neither the commit nor an error writes any of these fields, and the stored output is read from the
memory and OUTLEN. -/
theorem configFrame : Obligations.ConfigFrame := by
  intro s
  by_cases h : StagedValid s
  · exact ⟨_, execConfig_of_stagedValid h, by simp [SameStaging, SameMemory, SameModel, storedOutput]⟩
  · obtain ⟨e, he⟩ := execConfig_of_not_stagedValid h
    exact ⟨_, he, by simp [SameStaging, SameMemory, SameModel, storedOutput]⟩

end Sys2Proof.Machine
end

section
/-! PROOFS. RECEIVE as a command (R75, R76): its checks, its commit, its frame; the midpoint: O10, O12, O13, O16. -/

namespace Sys2Proof.Machine

open Sys2Proof.Safety

/-! ## The checks in their order (R75) -/

section
variable {s : State}

theorem schemeOf_eq_none {code : Nat} (h : 3 ≤ code) : schemeOf code = none := by
  unfold schemeOf
  rw [if_neg (by omega), if_neg (by omega), if_neg (by omega)]

theorem rxCheck_of_unconfigured (hc : s.cfgValid = false) : rxCheck s = .error .notConfigured := if_pos hc

theorem rxCheck_of_empty (hc : s.cfgValid = true) (hn : s.bitlen.toNat = 0) : rxCheck s = .error .invalidSignal := by
  simp [rxCheck, hc, inputBits, hn]

theorem rxCheck_of_unknown (hc : s.cfgValid = true) (hn : s.bitlen.toNat ≠ 0) (hsch : 3 ≤ s.aScheme.toNat) :
    rxCheck s = .error .unknownModulation := by
  simp [rxCheck, hc, inputBits, hn, activeScheme, schemeOf_eq_none hsch]

theorem rxCheck_of_overflow (hc : s.cfgValid = true) (hn : s.bitlen.toNat ≠ 0) (hsch : s.aScheme.toNat ≤ 2)
    (hcap : s.params.maxBits < s.bitlen.toNat ∨ s.params.maxSamples < s.bitlen.toNat * s.aSpb.toNat) :
    rxCheck s = .error .capacityExceeded := by
  obtain ⟨sch, hs⟩ := exists_scheme_of_le_two hsch
  simp [rxCheck, hc, inputBits, hn, activeScheme, hs, activeSpb, hcap]

/-- What a RECEIVE that answers a next state has done, told by its checks. -/
theorem execReceive_of_rxCheck_ok {t : State} {sch : Scheme} (hok : rxCheck s = .ok sch) (h : execReceive s = .next t) :
    ∃ bits, t = rxCommit s (rxOutput s sch bits) := by
  cases hb : readBits s.mem 0 (inputBits s) with
  | none => rw [execReceive_of_unwritten hok hb] at h; cases h
  | some bits => rw [execReceive_of_written hok hb] at h; cases h; exact ⟨bits, rfl⟩

end

/-- Settles O10: each check is made only if those before it pass, and none of them reads BITBUF. -/
theorem receiveValidationOrder : Obligations.ReceiveValidationOrder := by
  refine fun s => ⟨fun hc => execReceive_of_error (rxCheck_of_unconfigured hc),
    fun hc hn => execReceive_of_error (rxCheck_of_empty hc hn),
    fun hc hn hsch => execReceive_of_error (rxCheck_of_unknown hc hn hsch),
    fun hc hn hsch hcap => execReceive_of_error (rxCheck_of_overflow hc hn hsch hcap),
    fun hc hn hsch hbits hsamples t ht => ?_⟩
  obtain ⟨sch, hs⟩ := exists_scheme_of_le_two hsch
  obtain ⟨bits, rfl⟩ :=
    execReceive_of_rxCheck_ok (rxCheck_eq_ok.2 ⟨hc, Nat.pos_of_ne_zero hn, hs, hbits, hsamples⟩) ht
  rfl

/-! ## The commit and the frame (R76) -/

section
variable {s : State} {sch : Scheme} {bits : List Bool}

theorem length_rxOutput_of_receivable (hr : Receivable s sch bits) :
    (rxOutput s sch bits).length = s.bitlen.toNat * s.aSpb.toNat := by
  rw [length_rxOutput, hr.bits_length, activeSpb]

theorem rxCommit_mem (s : State) (out : List F64) : (rxCommit s out).mem = outWrite s.mem out := rfl

theorem rxCommit_trace (s : State) (out : List F64) : (rxCommit s out).trace = s.trace ++ emissionOf s out := rfl

/-- The commit changes no byte but those of its N*S samples. -/
theorem read_rxCommit_of_notMem (hr : Receivable s sch bits) {a : Nat}
    (ha : a < outbufBase ∨ outbufBase + 8 * (s.bitlen.toNat * s.aSpb.toNat) ≤ a) :
    Memory.read (rxCommit s (rxOutput s sch bits)).mem a = Memory.read s.mem a := by
  rw [rxCommit_mem]
  exact read_outWrite_of_notMem _ _ (by rwa [length_rxOutput_of_receivable hr])

/-- A committed sample reads back. -/
theorem outSample_rxCommit (s : State) {out : List F64} {j : Nat} {x : F64} (h : out[j]? = some x) :
    outSample (rxCommit s out).mem (outbufBase + 8 * j) = x := by
  obtain ⟨hj, rfl⟩ := List.getElem?_eq_some_iff.1 h
  exact outSample_outWrite s.mem out j hj

end

/-- Settles O12: a receivable state ends in the commit of its output; an outcome with an error code is `raise`. -/
theorem receiveCommitsOutput : Obligations.ReceiveCommitsOutput := by
  refine fun s => ⟨⟨rfl, rfl, rfl⟩, fun sch bits hr => ?_, fun t ht herr => ?_⟩
  · have hlen : (rxCommit s (rxOutput s sch bits)).outlen = BitVec.ofNat 32 (rxOutput s sch bits).length := rfl
    rw [length_rxOutput_of_receivable hr] at hlen
    exact ⟨_, execReceive_of_receivable hr, fun j x hx => outSample_rxCommit s hx,
      fun a ha => read_rxCommit_of_notMem hr ha, hlen, rfl, rfl, rxCommit_trace s _⟩
  · rcases execReceive_cases ht with ⟨e, rfl⟩ | ⟨sch, bits, -, rfl⟩
    · rfl
    · exact absurd rfl herr

/-- Settles O13: neither the commit nor an error writes any of these fields or bytes. -/
theorem receiveFrame : Obligations.ReceiveFrame := by
  intro s t ht
  rcases execReceive_cases ht with ⟨e, rfl⟩ | ⟨sch, bits, hr, rfl⟩
  · simp [SameStaging, SameActive, SameModel]
  · refine ⟨?_, ?_, ?_, ?_, ?_, ?_, fun a ha => read_rxCommit_of_notMem hr ha⟩ <;>
      simp [SameStaging, SameActive, SameModel, rxCommit]

/-- Settles O16: the invariant says that the sum of the amplitudes is finite, and halving keeps it finite. -/
theorem midpointIsFinite : Obligations.MidpointIsFinite :=
  fun _ hs hc => ⟨rfl, midLevel_finite (hs.active_valid hc).sum_finite⟩

end Sys2Proof.Machine
end

section
/-! PROOFS. The waveforms sample by sample (R77 to R79, R82 to R84, R88): O14, O15, O17, O18, O19, O24. -/

namespace Sys2Proof.Machine

/-- Settles O15: arithmetic of `S div 3`. -/
theorem segmentSizes : Obligations.SegmentSizes := by
  intro S hS
  unfold segL segK
  omega

/-! ## The waves in their order (R77) -/

theorem take_drop_eq_of_getElem? {out wave : List F64} {n S : Nat} (hlen : wave.length = S)
    (h : ∀ j < S, out[n + j]? = wave[j]?) : (out.drop n).take S = wave := by
  refine List.ext_getElem? fun j => ?_
  rcases Nat.lt_or_ge j S with hj | hj
  · rw [List.getElem?_take_of_lt hj, List.getElem?_drop, h j hj]
  · rw [List.getElem?_take_eq_none hj, List.getElem?_eq_none (by omega)]

section
variable {bits : List Bool} {i j S : Nat} {b : Bool} (hb : bits[i]? = some b) (hj : j < S)
include hb hj

theorem getElem?_nrz_eq (amin amax : F64) :
    (nrz amin amax S bits)[i * S + j]? = (List.replicate S (level amin amax b))[j]? := by
  rw [nrz, getElem?_flatMap_of_const (fun _ => List.length_replicate) bits i j hj, hb, Option.bind_some]

theorem getElem?_nrzt_eq (p : Config.Params) (amin amax : F64) : (nrzt p amin amax S bits)[i * S + j]? =
    (nrztWave p amin amax S (bitBefore none bits i) b bits[i + 1]?)[j]? := by
  rw [nrzt, getElem?_nrztFrom p amin amax S none bits i j hj, hb, Option.bind_some]

theorem getElem?_rz_eq (amax : F64) : (rz amax S bits)[i * S + j]? = (rzWave amax S b)[j]? := by
  rw [rz, getElem?_flatMap_of_const (length_rzWave amax S) bits i j hj, hb, Option.bind_some]

end

/-- Settles O14: the samples of bit `i` are those of its wave, one by one. -/
theorem outputHoldsWavesInOrder : Obligations.OutputHoldsWavesInOrder := by
  refine fun p sch amin amax S bits => ⟨length_modulate p sch amin amax S bits, fun i b hb => ?_⟩
  cases sch with
  | nrz => exact take_drop_eq_of_getElem? List.length_replicate fun j hj => getElem?_nrz_eq hb hj amin amax
  | nrzt => exact take_drop_eq_of_getElem? (length_nrztWave ..) fun j hj => getElem?_nrzt_eq hb hj p amin amax
  | rz => exact take_drop_eq_of_getElem? (length_rzWave ..) fun j hj => getElem?_rz_eq hb hj amax

/-- Settles O17: the wave of a bit is S copies of its level. -/
theorem nrzSamples : Obligations.NrzSamples := by
  refine fun amin amax S bits => ⟨length_flatMap_of_const (fun _ => List.length_replicate) bits, fun i j b hb hj => ?_⟩
  rw [getElem?_nrz_eq hb hj, List.getElem?_replicate_of_lt hj, level]

/-! ## The three segments of a bit (R78, R83, R88) -/

/-- The samples of a bit whose segments 1 and 2 have `k` samples each. -/
theorem getElem?_segments {seg1 seg2 seg3 : List F64} {k : Nat} (h1 : seg1.length = k) (h2 : seg2.length = k) (j : Nat) :
    (seg1 ++ seg2 ++ seg3)[j]? =
      if j < k then seg1[j]? else if j < 2 * k then seg2[j - k]? else seg3[j - 2 * k]? := by
  rw [List.append_assoc]
  split_ifs with hj hj2
  · rw [List.getElem?_append_left (by omega)]
  · rw [List.getElem?_append_right (by omega), h1, List.getElem?_append_left (by omega)]
  · rw [List.getElem?_append_right (by omega), h1, List.getElem?_append_right (by omega), h2]
    congr 1
    omega

/-- Settles O24: only the middle segment of a 1 bit holds Amax. -/
theorem rzSamples : Obligations.RzSamples := by
  refine fun amax S bits => ⟨length_flatMap_of_const (length_rzWave amax S) bits, fun i j b hb hj => ?_⟩
  have hsum := segments_sum S
  rw [getElem?_rz_eq hb hj, rzWave, getElem?_segments List.length_replicate List.length_replicate, ← segK]
  by_cases h1 : j < segK S
  · rw [if_pos h1, if_neg (by omega), List.getElem?_replicate_of_lt h1]
    rfl
  by_cases h2 : j < 2 * segK S
  · rw [if_neg h1, if_pos h2, List.getElem?_replicate_of_lt (by omega)]
    simp only [not_lt.1 h1, h2, true_and]
    rfl
  · rw [if_neg h1, if_neg h2, if_neg (by omega), List.getElem?_replicate_of_lt (by omega)]
    rfl

section
variable (p : Config.Params) (amin amax : F64) {S j : Nat} (b : Bool)

theorem getElem?_nrztSeg1 (prev : Option Bool) (hj : j < segK S) : (nrztSeg1 p amin amax S prev b)[j]? =
    some (if differs p prev b then rampUp p.profile j (segK S) (midLevel amin amax) (level amin amax b)
      else level amin amax b) := by
  unfold nrztSeg1
  split
  · rw [List.getElem?_map, List.getElem?_range hj, Option.map_some]
  · rw [List.getElem?_replicate_of_lt hj]

theorem getElem?_nrztSeg3 (next : Option Bool) (hj : j < segL S) : (nrztSeg3 p amin amax S b next)[j]? =
    some (if differs p next b then rampDown p.profile j (segL S) (midLevel amin amax) (level amin amax b)
      else level amin amax b) := by
  unfold nrztSeg3
  split
  · rw [List.getElem?_map, List.getElem?_range hj, Option.map_some]
  · rw [List.getElem?_replicate_of_lt hj]

/-- Every sample of a bit under NRZT, by the differences from its two neighbours (R83). -/
theorem getElem?_nrztWave (prev next : Option Bool) (hj : j < S) : (nrztWave p amin amax S prev b next)[j]? =
    some (if j < segK S then
        if differs p prev b then rampUp p.profile j (segK S) (midLevel amin amax) (level amin amax b)
        else level amin amax b
      else if j < 2 * segK S then level amin amax b
      else if differs p next b then
        rampDown p.profile (j - 2 * segK S) (segL S) (midLevel amin amax) (level amin amax b)
      else level amin amax b) := by
  have hsum := segments_sum S
  rw [nrztWave, getElem?_segments (length_nrztSeg1 ..) List.length_replicate]
  by_cases h1 : j < segK S
  · rw [if_pos h1, if_pos h1, getElem?_nrztSeg1 p amin amax b prev h1]
  by_cases h2 : j < 2 * segK S
  · rw [if_neg h1, if_pos h2, if_neg h1, if_pos h2, List.getElem?_replicate_of_lt (by omega)]
  · rw [if_neg h1, if_neg h2, if_neg h1, if_neg h2, getElem?_nrztSeg3 p amin amax b next (by omega)]

end

/-! ## NRZT: the neighbours of a bit (R83, R84) -/

section
variable (p : Config.Params) {bits : List Bool} {i : Nat} (b : Bool)

@[simp] theorem differs_some (n : Bool) : differs p (some n) b = true ↔ some n ≠ some b := by simp [differs]

@[simp] theorem differs_none : differs p none b = true ↔ p.boundary = .ramp := by simp [differs]

/-- A bit's predecessor is a bit of the sequence, or null at bit 0. -/
theorem differs_bitBefore (hi : i < bits.length) : differs p (bitBefore none bits i) b = true ↔
    (0 < i ∧ bits[i - 1]? ≠ some b) ∨ (i = 0 ∧ p.boundary = .ramp) := by
  unfold bitBefore
  by_cases h0 : i = 0
  · simp [h0]
  · rw [if_neg h0, List.getElem?_eq_getElem (by omega), differs_some]
    simp [h0, Nat.pos_of_ne_zero h0]

/-- A bit's successor is a bit of the sequence, or null at the last bit. -/
theorem differs_bitAfter (hi : i < bits.length) : differs p bits[i + 1]? b = true ↔
    (i + 1 < bits.length ∧ bits[i + 1]? ≠ some b) ∨ (i + 1 = bits.length ∧ p.boundary = .ramp) := by
  by_cases h1 : i + 1 = bits.length
  · simp [h1]
  · have hlt : i + 1 < bits.length := by omega
    rw [List.getElem?_eq_getElem hlt, differs_some]
    simp [h1, hlt]

end

/-- Settles O18: the sample is that of the bit's wave between its two neighbours. -/
theorem nrztSamples : Obligations.NrztSamples := by
  intro p amin amax S bits i j b hb hj
  have hi : i < bits.length := (List.getElem?_eq_some_iff.1 hb).1
  rw [getElem?_nrzt_eq hb hj, getElem?_nrztWave p amin amax b _ _ hj]
  simp only [differs_bitBefore p b hi, differs_bitAfter p b hi]
  rfl

/-- Settles O19: bit 0 has a null predecessor and bit N - 1 a null successor. -/
theorem nrztBoundaryPolicy : Obligations.NrztBoundaryPolicy := by
  intro p amin amax S bits first last j hfirst hlast
  have hsum := segments_sum S
  rw [List.head?_eq_getElem?] at hfirst
  rw [List.getLast?_eq_getElem?] at hlast
  have hnone : bits[bits.length - 1 + 1]? = none := List.getElem?_eq_none (by omega)
  rw [← segK, ← segL]
  refine ⟨fun hj => ?_, fun hj => ?_⟩
  · have hw := getElem?_nrzt_eq hfirst (show j < S by omega) p amin amax
    rw [Nat.zero_mul, Nat.zero_add] at hw
    rw [hw, getElem?_nrztWave p amin amax first _ _ (by omega), if_pos hj]
    cases hp : p.boundary <;> simp [bitBefore, hp]
  · have hw := getElem?_nrzt_eq hlast (show 2 * segK S + j < S by omega) p amin amax
    rw [← Nat.add_assoc, hnone] at hw
    rw [hw, getElem?_nrztWave p amin amax last _ _ (by omega), if_neg (by omega), if_neg (by omega)]
    cases hp : p.boundary <;> simp [hp]

end Sys2Proof.Machine
end

section
/-! PROOFS. The ramps (R85, R86): the limits of profiles 1 to 15, the ends of a REF ramp: O20, O21. -/

namespace Sys2Proof.Machine

/-! ## Profiles 1 to 15 (R85) -/

section
variable {profile : BitVec 4} {n : Nat} {mid lvl : F64}

theorem between_left (hm : mid.isNaN = false) (hl : lvl.isNaN = false) : between mid lvl mid = true := by
  simp [between, F64.le_iff_key, hm, hl, le_total]

/-- A profile's rising ramp keeps its limits, or, where an end is not finite, may be the midpoint throughout. -/
theorem keepsLimits_or_constant (profile : BitVec 4) (n : Nat) (mid lvl : F64) :
    keepsLimits (Config.rampLine profile n mid lvl) n mid lvl (freeRampUp profile n mid lvl) = true ∨
      ∀ j, freeRampUp profile n mid lvl j = mid := by
  by_cases hfin : mid.isFinite = true ∧ lvl.isFinite = true
  · exact .inl (keepsLimits_freeRampUp profile n hfin.1 hfin.2)
  by_cases hk : keepsLimits (Config.rampLine profile n mid lvl) n mid lvl
      (fun i => Config.rampSample profile i n mid lvl) = true
  · have hfree : freeRampUp profile n mid lvl = fun i => Config.rampSample profile i n mid lvl :=
      funext fun j => if_pos hk
    exact .inl (hfree ▸ hk)
  · exact .inr fun j => by rw [freeRampUp, if_neg hk, lineSample, if_neg (by simpa using hfin)]

/-- The range and the direction of R85. -/
theorem freeRampUp_between (hm : mid.isNaN = false) (hl : lvl.isNaN = false) {j : Nat} (hj : j < n) :
    between mid lvl (freeRampUp profile n mid lvl j) = true ∧
      (j + 1 < n → between (freeRampUp profile n mid lvl j) lvl (freeRampUp profile n mid lvl (j + 1)) = true) := by
  rcases keepsLimits_or_constant profile n mid lvl with hk | hc
  · obtain ⟨hrange, hdir, -⟩ := keepsLimits_apply hk hj
    exact ⟨hrange, hdir⟩
  · rw [hc, hc]
    exact ⟨between_left hm hl, fun _ => between_left hm hl⟩

/-- The linearity of R85: the samples meet the profile's line but for rounding. -/
theorem freeRampUp_linear (hm : mid.isFinite = true) (hl : lvl.isFinite = true) :
    ∃ p q d : Nat, 0 < q ∧ 0 < d ∧ (∀ j < n, p + q * j ≤ d) ∧ ∀ j < n,
      ((freeRampUp profile n mid lvl j).units * d -
        (mid.units * d + (lvl.units - mid.units) * (p + q * j : Nat))).natAbs ≤
        (n + 8) * max mid.ulp lvl.ulp * d := by
  refine ⟨(Config.rampLine profile n mid lvl).start, (Config.rampLine profile n mid lvl).slope + 1, _,
    Nat.succ_pos _, lineDen_pos (Config.rampLine profile n mid lvl) n, fun j hj => lineNum_le_lineDen _ hj,
    fun j hj => ?_⟩
  obtain ⟨-, -, hline⟩ := keepsLimits_apply (keepsLimits_freeRampUp profile n hm hl) hj
  exact hline

end

/-- A falling ramp is the rising one over as many samples, in reverse (R85, mirror). -/
theorem rampDown_eq_rampUp (profile : BitVec 4) (j k : Nat) (mid lvl : F64) :
    rampDown profile j k mid lvl = rampUp profile (k - 1 - j) k mid lvl := rfl

/-- Settles O20: whatever the free values are, the model holds the ramp to the limits along its line. -/
theorem rampProfilesKeepLimits : Obligations.RampProfilesKeepLimits := by
  intro profile k mid lvl
  have hfree (hp : profile ≠ 0) (j : Nat) : rampUp profile j k mid lvl = freeRampUp profile k mid lvl j := if_neg hp
  refine ⟨fun hp hm hl j hj => ?_, fun hp hm hl => ?_, fun j => rampDown_eq_rampUp profile j k mid lvl⟩
  · rw [hfree hp, hfree hp]
    exact freeRampUp_between hm hl hj
  · simp only [hfree hp]
    exact freeRampUp_linear hm hl

/-! ## The ends of a REF ramp (R86) -/

/-- The first sample of a rising REF ramp and the last of a falling one add a zero to the midpoint. -/
theorem refRamp_ends {mid lvl : F64} (hd : (F64.sub lvl mid).isFinite = true) {k : Nat} (hk : 0 < k) :
    refRampUp 0 k mid lvl = F64.add mid (F64.pack (F64.sub lvl mid).sign 0) ∧
      refRampDown (k - 1) k mid lvl = F64.add mid (F64.pack (F64.sub lvl mid).sign 0) := by
  have hup : refRampUp 0 k mid lvl = F64.add mid (F64.pack (F64.sub lvl mid).sign 0) := by
    rw [refRampUp, F64.ofNat_zero, F64.div_zero_ofNat hk, F64.mul_posZero hd]
  refine ⟨hup, ?_⟩
  rw [← rampDown_ref, rampDown_eq_rampUp, Nat.sub_self, rampUp_ref, hup]

/-- The difference from -0.0 has the sign of the level's value. -/
theorem sign_sub_negZero {lvl : F64} (hl : lvl.isFinite = true) :
    (F64.sub lvl 0x8000000000000000).sign = decide (lvl.units < 0) := by
  have hz : F64.neg 0x8000000000000000 = F64.posZero := by decide
  have hfacts : F64.posZero.isFinite = true ∧ F64.posZero.units = 0 ∧ F64.posZero.sign = false := by decide +kernel
  obtain ⟨hfin, hunits, hsign⟩ := hfacts
  rw [F64.sub, hz, F64.sign_add hl hfin, F64.sumSign, hunits, hsign, Int.add_zero, Bool.and_false]
  split
  · next h => simp [h]
  · rfl

/-- Where the midpoint is -0.0, a REF ramp starts and ends at the zero with the sign of the level's value. -/
theorem refRamp_ends_negZero {lvl : F64} (hl : lvl.isFinite = true)
    (hd : (F64.sub lvl 0x8000000000000000).isFinite = true) {k : Nat} (hk : 0 < k) :
    refRampUp 0 k 0x8000000000000000 lvl = F64.pack (decide (lvl.units < 0)) 0 ∧
      refRampDown (k - 1) k 0x8000000000000000 lvl = F64.pack (decide (lvl.units < 0)) 0 := by
  have hadd : ∀ z : Bool, F64.add 0x8000000000000000 (F64.pack z 0) = F64.pack z 0 := by decide +kernel
  obtain ⟨hup, hdown⟩ := refRamp_ends hd hk
  rw [hup, hdown, sign_sub_negZero hl, hadd]
  exact ⟨rfl, rfl⟩

/-- Settles O21: a zero is added to the midpoint, with the sign of the level's distance from it. -/
theorem refRampStartsAtMidpoint : Obligations.RefRampStartsAtMidpoint := by
  intro amin amax b k hmin hmax hsum hk
  have hl : (level amin amax b).isFinite = true := by cases b <;> assumption
  have hd := sub_midLevel_finite hmin hmax hsum b
  obtain ⟨hup, hdown, hbits⟩ := refRamp_at_midLevel (midLevel_finite hsum) hd hk
  refine ⟨hup, hdown, hbits, fun hz hneg => ?_, fun hz hpos => ?_⟩
  · rw [hz] at hd ⊢
    have hends := refRamp_ends_negZero hl hd hk
    rwa [decide_eq_true hneg] at hends
  · rw [hz] at hd ⊢
    have hends := refRamp_ends_negZero hl hd hk
    rwa [decide_eq_false (not_lt.2 hpos)] at hends

end Sys2Proof.Machine
end

section
/-! PROOFS. NRZT under REF at the border of two bits (R87): O23. -/

namespace Sys2Proof.Machine

section
variable {bits : List Bool} {i : Nat} {b c : Bool} (hb : bits[i]? = some b) (hc : bits[i + 1]? = some c)
include hb hc

/-- The last sample of a bit that has a successor. -/
theorem getElem?_nrzt_last (p : Config.Params) (amin amax : F64) {S : Nat} (hS : 1 ≤ S) :
    (nrzt p amin amax S bits)[i * S + S - 1]? = some (if b ≠ c then
      rampDown p.profile (segL S - 1) (segL S) (midLevel amin amax) (level amin amax b) else level amin amax b) := by
  obtain ⟨-, hsum, -, hpos, -⟩ := segmentSizes S hS
  have hdiff : differs p (some c) b = true ↔ b ≠ c := by rw [differs_some, ne_eq, Option.some_inj, ne_comm]
  rw [Nat.add_sub_assoc hS, getElem?_nrzt_eq hb (by omega), hc, getElem?_nrztWave _ _ _ _ _ _ (by omega),
    if_neg (by omega), if_neg (by omega), show S - 1 - 2 * segK S = segL S - 1 by omega]
  simp only [hdiff]

/-- The first sample of a bit that has a predecessor: of its first segment or, where that is empty, of its last. -/
theorem getElem?_nrzt_first (p : Config.Params) (amin amax : F64) {S : Nat} (hS : 1 ≤ S) :
    (nrzt p amin amax S bits)[(i + 1) * S]? = some (if 0 < segK S then
        if b ≠ c then rampUp p.profile 0 (segK S) (midLevel amin amax) (level amin amax c) else level amin amax c
      else if differs p bits[i + 2]? c then
        rampDown p.profile 0 (segL S) (midLevel amin amax) (level amin amax c) else level amin amax c) := by
  have hprev : bitBefore none bits (i + 1) = some b := hb
  rw [← Nat.add_zero ((i + 1) * S), getElem?_nrzt_eq hc (by omega), hprev, getElem?_nrztWave _ _ _ _ _ _ (by omega)]
  by_cases hk : 0 < segK S
  · simp [hk]
  · simp [Nat.eq_zero_of_not_pos hk]

end

/-- A bit whose successor is equal, or null under FLAT, does not differ from it. -/
theorem differs_eq_false {p : Config.Params} {next : Option Bool} {c : Bool}
    (h : next = some c ∨ (next = none ∧ p.boundary = .flat)) : differs p next c = false := by
  rcases h with rfl | ⟨rfl, hp⟩
  · simp [differs]
  · simp [differs, hp]

/-- Every sample of the middle segment of a bit is its level (R83). -/
theorem getElem?_nrzt_middle {bits : List Bool} {i : Nat} {b : Bool} (hb : bits[i]? = some b) (p : Config.Params)
    (amin amax : F64) {S j : Nat} (h1 : segK S ≤ j) (h2 : j < 2 * segK S) :
    (nrzt p amin amax S bits)[i * S + j]? = some (level amin amax b) := by
  have hsum := segments_sum S
  rw [getElem?_nrzt_eq hb (by omega), getElem?_nrztWave _ _ _ _ _ _ (by omega), if_neg (by omega), if_pos h2]

/-- Settles O23: between unequal bits one ramp ends and the next starts, at the midpoint; between equal ones there is
no ramp. -/
theorem nrztIsContinuous : Obligations.NrztIsContinuous := by
  intro p amin amax S bits i b c hp hmin hmax hsum hS hb hc
  obtain ⟨-, -, -, hL, -⟩ := segmentSizes S hS
  have hk : 3 ≤ S ↔ 0 < segK S := by unfold segK; omega
  have hmid := midLevel_finite hsum
  refine ⟨_, _, getElem?_nrzt_last hb hc p amin amax hS, getElem?_nrzt_first hb hc p amin amax hS, fun hS3 hne => ?_,
    fun heq => if_neg (not_not.2 heq), fun heq hflat => ?_, fun j h1 h2 => getElem?_nrzt_middle hb p amin amax h1 h2⟩
  · obtain ⟨-, hdown, hdownBits⟩ := refRamp_at_midLevel hmid (sub_midLevel_finite hmin hmax hsum b) hL
    obtain ⟨hup, -, hupBits⟩ := refRamp_at_midLevel hmid (sub_midLevel_finite hmin hmax hsum c) (hk.1 hS3)
    rw [if_pos hne, if_pos (hk.1 hS3), if_pos hne, hp, rampDown_ref, rampUp_ref]
    exact ⟨hdown, hup, fun hz => ⟨(hdownBits hz).2, (hupBits hz).1⟩⟩
  · subst heq
    rcases hflat with hS3 | hflat
    · rw [if_pos (hk.1 hS3), if_neg (not_not.2 rfl)]
    · rw [differs_eq_false hflat, if_neg (not_not.2 rfl), if_neg Bool.false_ne_true, ite_self]

end Sys2Proof.Machine
end

section
/-! PROOFS. Rounding as a monotone function of the exact value, and its relative error (R10). -/

namespace Sys2Proof

/-! ## Rounding of an exact value -/

theorem F64.units_mono_key {x y : F64} (h : x.key ≤ y.key) : x.units ≤ y.units := by
  rw [← F64.unitsAt_key x, ← F64.unitsAt_key y]
  exact F64.unitsAt_strictMono.monotone h

/-- The value, in units of 2^-1074, of the number that an exact value in these units is rounded to. -/
def F64.rnd (q : ℚ) : ℚ := (F64.nearest q.num q.den).units

theorem F64.rnd_mono : Monotone F64.rnd := fun p q h => by
  have hle := F64.units_mono_key (F64.key_nearest_mono p.den_pos q.den_pos ((Rat.le_iff p q).1 h))
  exact Int.cast_le.2 hle

/-- Rounding depends on the exact value alone, not on the fraction it is written as. -/
theorem F64.units_nearest (num : Int) {den : Nat} (hden : 0 < den) :
    ((F64.nearest num den).units : ℚ) = F64.rnd (num / den) := by
  have hcross : (num / den : ℚ).num * den = num * (num / den : ℚ).den := by
    have h : ((num / den : ℚ).num : ℚ) * den = num * (num / den : ℚ).den := by
      have := Rat.num_div_den (num / den : ℚ)
      rwa [div_eq_div_iff (by positivity) (by positivity)] at this
    exact_mod_cast h
  have hpos := Rat.den_pos (num / den : ℚ)
  rw [F64.rnd, Int.cast_inj]
  exact le_antisymm (F64.units_mono_key (F64.key_nearest_mono hden hpos hcross.ge))
    (F64.units_mono_key (F64.key_nearest_mono hpos hden hcross.le))

/-- The value of a rounded magnitude with the sign of the exact value. -/
theorem F64.units_pack_roundMag (num : Int) (den : Nat) {sign : Bool} (hs : num ≠ 0 → sign = decide (num < 0)) :
    (F64.pack sign (F64.roundMag num.natAbs den)).units = num.sign * F64.magOf (F64.roundMag num.natAbs den) := by
  rw [F64.units, F64.sign_pack _ (F64.roundMag_lt _ _), F64.mag_pack_roundMag]
  rcases lt_trichotomy num 0 with h | rfl | h
  · simp [hs h.ne, h, Int.sign_eq_neg_one_of_neg h]
  · simp [F64.roundMag_zero]
  · simp [hs h.ne', h.le, Int.sign_eq_one_of_pos h]

theorem F64.rnd_eq (q : ℚ) : F64.rnd q = (q.num.sign * F64.magOf (F64.roundMag q.num.natAbs q.den) : Int) := by
  rw [F64.rnd, F64.nearest, F64.units_pack_roundMag _ _ fun _ => rfl]

theorem F64.rnd_neg (q : ℚ) : F64.rnd (-q) = -F64.rnd q := by
  rw [F64.rnd_eq, F64.rnd_eq, Rat.num_neg_eq_neg_num, Rat.den_neg_eq_den, Int.sign_neg, Int.natAbs_neg]
  push_cast
  ring

theorem F64.rnd_zero : F64.rnd 0 = 0 := by simp [F64.rnd_eq]

theorem F64.rnd_units {x : F64} (hx : x.isFinite = true) : F64.rnd x.units = x.units := by
  have hkey := F64.key_nearest_units hx one_pos
  rw [Nat.cast_one, mul_one] at hkey
  have h := F64.units_nearest x.units one_pos
  rw [Nat.cast_one, div_one] at h
  rw [← h, ← F64.unitsAt_key, hkey, F64.unitsAt_key]

/-- Half a unit in the last place above the greatest finite number: from there on rounding overflows. (Irreducible, so
that no tactic evaluates the power.) -/
@[irreducible] def F64.limit : Nat := (2 ^ 54 - 1) * 2 ^ 2044

theorem F64.limit_eq : F64.limit = (2 ^ 54 - 1) * 2 ^ 2044 := by delta F64.limit; rfl

theorem F64.roundMag_lt_infMag_iff_limit (num : Nat) {den : Nat} (hden : 0 < den) :
    F64.roundMag num den < F64.infMag ↔ num < F64.limit * den := by
  rw [F64.limit_eq, F64.roundMag_lt_infMag_iff num hden]

/-- A rounded magnitude is off by at most 2^-53 of the exact value, or by half a unit. -/
theorem F64.magError_roundMag_le {num den : Nat} (hden : 0 < den) (h : num < F64.limit * den) :
    2 ^ 53 * F64.magError num den (F64.roundMag num den) ≤ max (2 ^ 52 * den) num := by
  have hfin : F64.roundMag num den < F64.infMag := (F64.roundMag_lt_infMag_iff_limit num hden).2 h
  have hhalf := (F64.two_nearestEven_error_le num (d := den * 2 ^ F64.scaleOf num den) (by positivity)).1
  rw [← F64.magError_of_eq_mul (F64.magOf_roundUnbounded num den), ← F64.roundMag_eq_roundUnbounded hfin] at hhalf
  rcases Nat.eq_zero_or_pos (F64.scaleOf num den) with he | he
  · rw [he, pow_zero, mul_one] at hhalf
    omega
  · have hscale := F64.le_of_scaleOf_pos he
    have hcomm : 2 ^ 52 * 2 ^ F64.scaleOf num den * den = 2 ^ 52 * (den * 2 ^ F64.scaleOf num den) := by ring
    omega

/-- Rounding a value that does not overflow moves it by at most 2^-53 of any bound on it, from 2^52 units on. -/
theorem F64.abs_rnd_sub_le {q B : ℚ} (hlim : |q| < F64.limit) (hq : |q| ≤ B) (hB : 2 ^ 52 ≤ B) :
    |F64.rnd q - q| ≤ B / 2 ^ 53 := by
  have hd : (0 : ℚ) < q.den := by exact_mod_cast q.den_pos
  have hscaled (a : ℚ) : |a| * q.den = |a * q.den| := by rw [abs_mul, Nat.abs_cast]
  have hnum : (q.num.natAbs : ℚ) = |q| * q.den := by rw [hscaled, Rat.mul_den_eq_num, Nat.cast_natAbs, Int.cast_abs]
  have hlt : (q.num.natAbs : ℚ) < (F64.limit * q.den : Nat) := by
    rw [hnum, Nat.cast_mul]
    exact mul_lt_mul_of_pos_right hlim hd
  have herr := F64.magError_roundMag_le q.den_pos (Nat.cast_lt.1 hlt)
  rw [← F64.low_nearest, F64.magError_eq q.den fun _ => F64.sign_nearest _ _, ← Nat.cast_le (α := ℚ), Nat.cast_max,
    hnum] at herr
  have hrnd : |F64.rnd q - q| * q.den = (((F64.nearest q.num q.den).units * q.den - q.num).natAbs : ℚ) := by
    rw [hscaled, sub_mul, Rat.mul_den_eq_num, Nat.cast_natAbs, Int.cast_abs, F64.rnd]
    push_cast
    rfl
  have hmax : max ((2 ^ 52 * q.den : Nat) : ℚ) (|q| * q.den) ≤ B * q.den := by
    push_cast
    exact max_le (mul_le_mul_of_nonneg_right hB hd.le) (mul_le_mul_of_nonneg_right hq hd.le)
  have hall : |F64.rnd q - q| * 2 ^ 53 * q.den ≤ B * q.den := by
    rw [mul_right_comm, hrnd, mul_comm]
    exact_mod_cast herr.trans hmax
  rw [le_div_iff₀ (by norm_num)]
  exact le_of_mul_le_mul_right hall hd

/-! ## The operations round the exact results -/

/-- The value of `x` is the exact value `q` (in units of 2^-1074) rounded, and `x` is finite unless that overflows. -/
structure F64.IsRound (x : F64) (q : ℚ) : Prop where
  units : (x.units : ℚ) = F64.rnd q
  finite_iff : x.isFinite = true ↔ |q| < F64.limit

theorem F64.isRound_pack (num : Int) {den : Nat} (hden : 0 < den) {sign : Bool}
    (hs : num ≠ 0 → sign = decide (num < 0)) :
    F64.IsRound (F64.pack sign (F64.roundMag num.natAbs den)) (num / den) := by
  have hd : (0 : ℚ) < den := by exact_mod_cast hden
  constructor
  · rw [← F64.units_nearest num hden, F64.nearest, F64.units_pack_roundMag num den hs,
      F64.units_pack_roundMag num den fun _ => rfl]
  · rw [F64.isFinite_iff, F64.low_pack _ (F64.roundMag_lt _ _), F64.roundMag_lt_infMag_iff_limit _ hden, abs_div,
      Nat.abs_cast, div_lt_iff₀ hd, ← Nat.cast_lt (α := ℚ), Nat.cast_natAbs, Int.cast_abs, Nat.cast_mul]

theorem F64.isRound_add {a b : F64} (ha : a.isFinite = true) (hb : b.isFinite = true) :
    F64.IsRound (F64.add a b) (a.units + b.units) := by
  have h := F64.isRound_pack (a.units + b.units) one_pos (sign := F64.sumSign a b) fun h => if_neg h
  rwa [← F64.add_eq_pack ha hb, Nat.cast_one, div_one, Int.cast_add] at h

theorem F64.isRound_sub {a b : F64} (ha : a.isFinite = true) (hb : b.isFinite = true) :
    F64.IsRound (F64.sub a b) (a.units - b.units) := by
  have h := F64.isRound_add ha ((F64.isFinite_neg b).trans hb)
  rwa [F64.units_neg, Int.cast_neg, ← sub_eq_add_neg] at h

/-- The number of units in 1.0. (Irreducible, so that no tactic evaluates the power.) -/
@[irreducible] def F64.unitsOfOne : Nat := 2 ^ 1074

theorem F64.unitsOfOne_eq : F64.unitsOfOne = 2 ^ 1074 := by delta F64.unitsOfOne; rfl

theorem F64.unitsOfOne_pos : 0 < F64.unitsOfOne := by rw [F64.unitsOfOne_eq]; exact pow_pos two_pos _

theorem F64.isRound_mul {a b : F64} (ha : a.isFinite = true) (hb : b.isFinite = true) :
    F64.IsRound (F64.mul a b) (a.units * b.units / F64.unitsOfOne) := by
  have hmul : F64.mul a b = F64.pack (a.sign != b.sign) (F64.roundMag (a.units * b.units).natAbs F64.unitsOfOne) := by
    rw [F64.mul, ha, hb, Int.natAbs_mul, F64.natAbs_units, F64.natAbs_units, F64.unitsOfOne_eq]
    rfl
  rw [hmul, ← Int.cast_mul]
  exact F64.isRound_pack _ F64.unitsOfOne_pos fun h =>
    F64.bne_sign_eq_of_mul (left_ne_zero_of_mul h) (right_ne_zero_of_mul h)

theorem F64.units_ofNat {n : Nat} (h : n < 2 ^ 53) : (F64.ofNat n).units = (n * F64.unitsOfOne : Nat) := by
  rw [(F64.ofNat_exact h).2.2, F64.unitsOfOne_eq, Nat.cast_mul, Nat.cast_pow, Nat.cast_ofNat]

theorem F64.mag_ofNat {n : Nat} (h : n < 2 ^ 53) : (F64.ofNat n).mag = n * F64.unitsOfOne := by
  rw [← F64.natAbs_units, F64.units_ofNat h, Int.natAbs_natCast]

/-- The quotient of two integers below 2^53, such as the step fraction of R86. -/
theorem F64.isRound_div_ofNat {j k : Nat} (hj : j < 2 ^ 53) (hk0 : 0 < k) (hk : k < 2 ^ 53) :
    F64.IsRound (F64.div (F64.ofNat j) (F64.ofNat k)) (j / k * F64.unitsOfOne) := by
  obtain ⟨hfj, hsj, -⟩ := F64.ofNat_exact hj
  obtain ⟨hfk, hsk, -⟩ := F64.ofNat_exact hk
  have hden : 0 < k * F64.unitsOfOne := Nat.mul_pos hk0 F64.unitsOfOne_pos
  have hdiv : F64.div (F64.ofNat j) (F64.ofNat k) = F64.pack false
      (F64.roundMag (j * F64.unitsOfOne * F64.unitsOfOne : Nat) (k * F64.unitsOfOne)) := by
    rw [F64.div_eq_pack hfj hfk (by rw [F64.mag_ofNat hk]; exact hden.ne'), F64.mag_ofNat hj, F64.mag_ofNat hk, hsj, hsk,
      ← F64.unitsOfOne_eq]
    rfl
  have h := F64.isRound_pack (j * F64.unitsOfOne * F64.unitsOfOne : Nat) hden (sign := false)
    fun _ => (decide_eq_false (not_lt.2 (Nat.cast_nonneg _))).symm
  rw [Int.natAbs_natCast, ← hdiv] at h
  convert h using 1
  have hu : (F64.unitsOfOne : ℚ) ≠ 0 := by exact_mod_cast F64.unitsOfOne_pos.ne'
  push_cast
  field_simp

/-- The greatest finite number lies below the overflow threshold. -/
theorem F64.abs_units_lt_limit {x : F64} (hx : x.isFinite = true) : |(x.units : ℚ)| < F64.limit := by
  have hmid := F64.magOf_around_overflow.1
  have hle := F64.magOf_strictMono.monotone (Nat.le_pred_of_lt ((F64.isFinite_iff x).1 hx))
  have hlt := F64.magOf_strictMono (Nat.pred_lt F64.infMag_pos.ne')
  have h : x.units.natAbs < F64.limit := by
    rw [Nat.pred_eq_sub_one] at hle hlt
    rw [F64.natAbs_units, F64.mag_eq, F64.limit_eq]
    omega
  rw [← Int.cast_abs, ← Nat.cast_natAbs]
  exact_mod_cast h

/-! ## Values in the range of the numbers -/

theorem F64.isFinite_nearest {q : ℚ} (h : |q| < F64.limit) : (F64.nearest q.num q.den).isFinite = true := by
  rw [F64.nearest, (F64.isRound_pack q.num q.den_pos fun _ => rfl).finite_iff, Rat.num_div_den]
  exact h

theorem F64.rnd_rnd {q : ℚ} (h : |q| < F64.limit) : F64.rnd (F64.rnd q) = F64.rnd q :=
  F64.rnd_units (F64.isFinite_nearest h)

theorem F64.abs_rnd_lt_limit {q : ℚ} (h : |q| < F64.limit) : |F64.rnd q| < F64.limit :=
  F64.abs_units_lt_limit (F64.isFinite_nearest h)

/-- 1.0 is exact, and far from both ends of the range of the numbers. -/
theorem F64.unitsOfOne_facts : F64.rnd F64.unitsOfOne = F64.unitsOfOne ∧ (F64.unitsOfOne : ℚ) < F64.limit ∧
    (2 ^ 52 : ℚ) ≤ F64.unitsOfOne := by
  have h1 : 1 < 2 ^ 53 := by norm_num
  have hfin := (F64.ofNat_exact h1).1
  have hrnd := F64.rnd_units hfin
  have hlim := F64.abs_units_lt_limit hfin
  rw [F64.units_ofNat h1, one_mul, Int.cast_natCast] at hrnd hlim
  have hle : 2 ^ 52 ≤ F64.unitsOfOne := by
    rw [F64.unitsOfOne_eq]
    exact pow_le_pow_right₀ one_le_two (by norm_num)
  exact ⟨hrnd, by rwa [Nat.abs_cast] at hlim, by exact_mod_cast hle⟩

/-- A finite number has at most 53 bits at the unit in its last place. -/
theorem F64.mag_le_mul_ulp (x : F64) : x.mag ≤ (2 ^ 53 - 1) * x.ulp := by
  have hf := x.fraction_lt
  unfold F64.mag F64.ulp
  split
  · next h => rw [h]; omega
  · exact Nat.mul_le_mul_right _ (by omega)

theorem F64.abs_units_le_mul_ulp (x : F64) {U : Nat} (h : x.ulp ≤ U) : |(x.units : ℚ)| ≤ (2 ^ 53 - 1) * U := by
  have hle := x.mag_le_mul_ulp.trans (Nat.mul_le_mul_left _ h)
  rw [← Int.cast_abs, ← Nat.cast_natAbs, F64.natAbs_units]
  calc (x.mag : ℚ) ≤ ((2 ^ 53 - 1) * U : Nat) := Nat.cast_le.2 hle
    _ = (2 ^ 53 - 1) * U := by rw [Nat.cast_mul]; norm_num

end Sys2Proof
end

section
/-! PROOFS. The roundings of a REF ramp, and the limits of R85 (R86): O22. -/

namespace Sys2Proof.Machine

/-! ## The roundings of the REF ramp (R86) -/

/-- The step fraction of R86, rounded: the quotient of `j` and `k` in units, over the units in 1.0. -/
def stepFraction (j k : Nat) : ℚ := F64.rnd (j / k * F64.unitsOfOne) / F64.unitsOfOne

/-- What R86 adds to the midpoint at sample `j` of `k`: the level's exact distance `D` and its product with the step
fraction, each rounded. -/
def stepUnits (j k : Nat) (D : ℚ) : ℚ := F64.rnd (F64.rnd D * stepFraction j k)

theorem unitsOfOne_cast_pos : (0 : ℚ) < F64.unitsOfOne := Nat.cast_pos.2 F64.unitsOfOne_pos

theorem stepFraction_zero (k : Nat) : stepFraction 0 k = 0 := by
  rw [stepFraction, Nat.cast_zero, zero_div, zero_mul, F64.rnd_zero, zero_div]

theorem stepFraction_mono (k : Nat) : Monotone (stepFraction · k) := fun i j h => by
  have hu := unitsOfOne_cast_pos
  exact div_le_div_of_nonneg_right (F64.rnd_mono (by gcongr)) hu.le

theorem stepUnits_zero (k : Nat) (D : ℚ) : stepUnits 0 k D = 0 := by
  rw [stepUnits, stepFraction_zero, mul_zero, F64.rnd_zero]

theorem stepUnits_neg (j k : Nat) (D : ℚ) : stepUnits j k (-D) = -stepUnits j k D := by
  rw [stepUnits, stepUnits, F64.rnd_neg, neg_mul, F64.rnd_neg]

theorem stepFraction_nonneg (j k : Nat) : 0 ≤ stepFraction j k :=
  (stepFraction_zero k).ge.trans (stepFraction_mono k (Nat.zero_le j))

/-- The steps of a rising ramp do not fall. -/
theorem stepUnits_mono (k : Nat) {D : ℚ} (hD : 0 ≤ D) : Monotone (stepUnits · k D) := fun i j h => by
  have hd := F64.rnd_mono hD
  rw [F64.rnd_zero] at hd
  exact F64.rnd_mono (mul_le_mul_of_nonneg_left (stepFraction_mono k h) hd)

section
variable {j k : Nat} (hj : j < k)
include hj

theorem ratio_le (hk : k ≤ 2 ^ 28) : (j / k : ℚ) ≤ 1 - 1 / 2 ^ 28 := by
  have hk0 : (0 : ℚ) < k := by exact_mod_cast (Nat.zero_lt_of_lt hj)
  have hj' : (j : ℚ) + 1 ≤ k := by exact_mod_cast hj
  have hk' : (k : ℚ) ≤ 2 ^ 28 := by exact_mod_cast hk
  rw [div_le_iff₀ hk0]
  linarith

theorem ratio_le_one : (j / k : ℚ) ≤ 1 := div_le_one_of_le₀ (by exact_mod_cast hj.le) (Nat.cast_nonneg k)

theorem abs_ratio_units_le : |(j / k * F64.unitsOfOne : ℚ)| ≤ F64.unitsOfOne := by
  rw [abs_of_nonneg (by positivity)]
  exact mul_le_of_le_one_left unitsOfOne_cast_pos.le (ratio_le_one hj)

theorem stepFraction_error : |stepFraction j k - j / k| ≤ 1 / 2 ^ 53 := by
  have hu := unitsOfOne_cast_pos
  obtain ⟨-, hlim, hle⟩ := F64.unitsOfOne_facts
  have habs := abs_ratio_units_le hj
  have herr := F64.abs_rnd_sub_le (habs.trans_lt hlim) habs hle
  have hscale : stepFraction j k - j / k =
      (F64.rnd (j / k * F64.unitsOfOne) - j / k * F64.unitsOfOne) / F64.unitsOfOne := by
    rw [stepFraction, sub_div, mul_div_cancel_right₀ _ hu.ne']
  rw [hscale, abs_div, abs_of_pos hu, div_le_iff₀ hu, one_div_mul_eq_div]
  exact herr

theorem stepFraction_le_one : stepFraction j k ≤ 1 := by
  have hle := F64.rnd_mono ((le_abs_self _).trans (abs_ratio_units_le hj))
  rw [F64.unitsOfOne_facts.1] at hle
  exact div_le_one_of_le₀ hle unitsOfOne_cast_pos.le

theorem abs_mul_stepFraction_le (d : ℚ) : |d * stepFraction j k| ≤ |d| := by
  rw [abs_mul, abs_of_nonneg (stepFraction_nonneg j k)]
  exact mul_le_of_le_one_right (abs_nonneg d) (stepFraction_le_one hj)

/-- The error of the product of R86, for any bound on the distance from 2^52 units on. -/
theorem stepUnits_error {D B : ℚ} (hlim : |D| < F64.limit) (hd : |F64.rnd D| ≤ B) (hB : 2 ^ 52 ≤ B) :
    |stepUnits j k D - F64.rnd D * stepFraction j k| ≤ B / 2 ^ 53 := by
  have hle := abs_mul_stepFraction_le hj (F64.rnd D)
  exact F64.abs_rnd_sub_le (hle.trans_lt (F64.abs_rnd_lt_limit hlim)) (hle.trans hd) hB

end

section
variable {j k : Nat} {D : ℤ} (hD : 0 ≤ D) (hlim : |(D : ℚ)| < F64.limit)
include hD hlim

/-- A distance below 2^52 units is exact. -/
theorem rnd_eq_self_of_lt (h : (D : ℚ) < 2 ^ 52) : F64.rnd D = D := by
  have hD' : (0 : ℚ) ≤ D := by exact_mod_cast hD
  have herr := F64.abs_rnd_sub_le hlim (by rw [abs_of_nonneg hD']; exact h.le) le_rfl
  obtain ⟨n, hn⟩ : ∃ n : ℤ, F64.rnd D = n := ⟨_, rfl⟩
  rw [hn] at herr ⊢
  have hlt : |((n - D : ℤ) : ℚ)| < 1 := by push_cast; exact herr.trans_lt (by norm_num)
  rw [← Int.cast_abs, ← Int.cast_one, Int.cast_lt, Int.abs_lt_one_iff, sub_eq_zero] at hlt
  rw [hlt]

/-- No step goes beyond the level: where the rounding of the distance has an error it is less than the last sample's
distance from the level. -/
theorem stepUnits_le (hj : j < k) (hk : k ≤ 2 ^ 28) : stepUnits j k D ≤ D := by
  have hD' : (0 : ℚ) ≤ D := by exact_mod_cast hD
  have hd := F64.rnd_mono hD'
  rw [F64.rnd_zero] at hd
  rcases lt_or_ge (D : ℚ) (2 ^ 52) with hsmall | hlarge
  · calc stepUnits j k D ≤ F64.rnd (F64.rnd D) :=
          F64.rnd_mono (mul_le_of_le_one_right hd (stepFraction_le_one hj))
      _ = D := by rw [F64.rnd_rnd hlim, rnd_eq_self_of_lt hD hlim hsmall]
  · have hdist := F64.abs_rnd_sub_le hlim (abs_of_nonneg hD').le hlarge
    have hfrac := stepFraction_error hj
    have hratio := ratio_le hj hk
    have hnonneg := stepFraction_nonneg j k
    rw [abs_le] at hdist hfrac
    have hround := stepUnits_error hj (B := 2 * D) hlim (by rw [abs_of_nonneg hd]; linarith) (by linarith)
    rw [abs_le] at hround
    have hprod : F64.rnd D * stepFraction j k ≤ (D + D / 2 ^ 53) * (1 - 1 / 2 ^ 28 + 1 / 2 ^ 53) :=
      mul_le_mul (by linarith) (by linarith) hnonneg (by linarith)
    linarith

end

section
variable {i j k : Nat} {D : ℤ} (hlim : |(D : ℚ)| < F64.limit) (hij : i ≤ j) (hj : j < k) (hk : k ≤ 2 ^ 28)
include hlim hij hj hk

/-- Each step lies between the one before it and the level's distance, on either side of the midpoint. -/
theorem stepUnits_mem_uIcc : stepUnits j k D ∈ Set.uIcc (stepUnits i k D) D := by
  rw [Set.mem_uIcc]
  rcases le_total 0 D with hD | hD
  · exact .inl ⟨stepUnits_mono k (by exact_mod_cast hD) hij, stepUnits_le hD hlim hj hk⟩
  · have hneg : |((-D : ℤ) : ℚ)| < F64.limit := by rwa [Int.cast_neg, abs_neg]
    have hmono := stepUnits_mono k (D := (-D : ℤ)) (by exact_mod_cast neg_nonneg.2 hD) hij
    have hle := stepUnits_le (neg_nonneg.2 hD) hneg hj hk
    simp only [Int.cast_neg, stepUnits_neg] at hmono hle
    exact .inr ⟨neg_le_neg_iff.1 hle, neg_le_neg_iff.1 hmono⟩

end

theorem abs_le_max_of_mem_uIcc {a b x : ℚ} (h : x ∈ Set.uIcc a b) : |x| ≤ max |a| |b| := by
  rcases Set.mem_uIcc.1 h with ⟨h1, h2⟩ | ⟨h1, h2⟩
  · exact abs_le_max_abs_abs h1 h2
  · rw [max_comm]
    exact abs_le_max_abs_abs h1 h2

/-- The exact sum of the midpoint `m` and a step lies between the midpoint and the level. -/
theorem add_stepUnits_mem_uIcc (m : ℤ) {j k : Nat} {D : ℤ} (hlim : |(D : ℚ)| < F64.limit) (hj : j < k)
    (hk : k ≤ 2 ^ 28) : m + stepUnits j k D ∈ Set.uIcc (m : ℚ) (m + D) := by
  have hstep := stepUnits_mem_uIcc hlim (Nat.zero_le j) hj hk
  have hadd : Monotone ((m : ℚ) + ·) := fun _ _ h => add_le_add le_rfl h
  have hmem := hadd.mapsTo_uIcc hstep
  rwa [stepUnits_zero, add_zero] at hmem

/-- The error of a REF ramp: twice the unit `U` in the last place of the greater end at most for the distance, for the
step fraction and for the product, and that unit itself for the sum. -/
theorem refRamp_error {j k : Nat} {m D : ℤ} {U : ℚ} (hlim : |(D : ℚ)| < F64.limit)
    (hsum : |m + stepUnits j k D| < F64.limit) (hj : j < k) (hk : k ≤ 2 ^ 28) (hU : 1 ≤ U)
    (hm : |(m : ℚ)| ≤ (2 ^ 53 - 1) * U) (hl : |(m + D : ℚ)| ≤ (2 ^ 53 - 1) * U) :
    |F64.rnd (m + stepUnits j k D) - (m + D * (j / k))| ≤ 7 * U := by
  have hD : |(D : ℚ)| ≤ (2 ^ 54 - 2) * U := by
    rw [abs_le] at hm hl ⊢
    constructor <;> linarith
  have hdist := F64.abs_rnd_sub_le (B := 2 ^ 54 * U) hlim (by linarith) (by linarith)
  have hd : |F64.rnd D| ≤ 2 ^ 54 * U := by
    rw [abs_le] at hD hdist ⊢
    constructor <;> linarith
  have hprod := stepUnits_error hj hlim hd (by linarith)
  have hmax := (abs_le_max_of_mem_uIcc (add_stepUnits_mem_uIcc m hlim hj hk)).trans (max_le hm hl)
  have hlast := F64.abs_rnd_sub_le (B := 2 ^ 53 * U) hsum (by linarith) (by linarith)
  have hfrac : |F64.rnd D * (stepFraction j k - j / k)| ≤ 2 ^ 54 * U * (1 / 2 ^ 53) := by
    rw [abs_mul]
    exact mul_le_mul hd (stepFraction_error hj) (abs_nonneg _) (by positivity)
  have hratio : |(F64.rnd D - D) * (j / k)| ≤ 2 ^ 54 * U / 2 ^ 53 * 1 := by
    rw [abs_mul, abs_of_nonneg (show (0 : ℚ) ≤ j / k by positivity)]
    exact mul_le_mul hdist (ratio_le_one hj) (by positivity) (by positivity)
  rw [abs_le] at hprod hlast hfrac hratio ⊢
  constructor <;> linarith

/-! ## The samples of the REF ramp -/

theorem between_iff {a b x : F64} (ha : a.isFinite = true) (hb : b.isFinite = true) (hx : x.isFinite = true) :
    between a b x = true ↔ (x.units : ℚ) ∈ Set.uIcc (a.units : ℚ) b.units := by
  rw [between, Bool.or_eq_true, Bool.and_eq_true, Bool.and_eq_true, (F64.compare_finite ha hx).2.1,
    (F64.compare_finite hx hb).2.1, (F64.compare_finite hb hx).2.1, (F64.compare_finite hx ha).2.1, Set.mem_uIcc]
  simp only [Int.cast_le]

section
variable {mid lvl : F64} (hm : mid.isFinite = true) (hl : lvl.isFinite = true)
  (hd : (F64.sub lvl mid).isFinite = true) {k : Nat} (hk : k ≤ 2 ^ 28)
include hm hl hd

theorem abs_distance_lt_limit : |((lvl.units - mid.units : ℤ) : ℚ)| < F64.limit := by
  rw [Int.cast_sub]
  exact (F64.isRound_sub hl hm).finite_iff.1 hd

include hk

/-- A REF sample is the rounded sum of the midpoint and its step, and it is finite. -/
theorem refRampUp_units {j : Nat} (hj : j < k) : (refRampUp j k mid lvl).isFinite = true ∧
    ((refRampUp j k mid lvl).units : ℚ) = F64.rnd (mid.units + stepUnits j k (lvl.units - mid.units : ℤ)) ∧
    |mid.units + stepUnits j k (lvl.units - mid.units : ℤ)| < F64.limit := by
  have hlim := abs_distance_lt_limit hm hl hd
  have hone := unitsOfOne_cast_pos
  have hfrac := F64.isRound_div_ofNat (show j < 2 ^ 53 by omega) (show 0 < k by omega) (show k < 2 ^ 53 by omega)
  have hfracFin := hfrac.finite_iff.2 ((abs_ratio_units_le hj).trans_lt F64.unitsOfOne_facts.2.1)
  have hprod := F64.isRound_mul hd hfracFin
  rw [hfrac.units, (F64.isRound_sub hl hm).units, mul_div_assoc, ← Int.cast_sub, ← stepFraction] at hprod
  have hprodFin := hprod.finite_iff.2 ((abs_mul_stepFraction_le hj _).trans_lt (F64.abs_rnd_lt_limit hlim))
  have hsum := F64.isRound_add hm hprodFin
  rw [hprod.units, ← stepUnits] at hsum
  have hmem := abs_le_max_of_mem_uIcc (add_stepUnits_mem_uIcc mid.units hlim hj hk)
  rw [Int.cast_sub, add_sub_cancel, ← Int.cast_sub] at hmem
  have hsumLim := hmem.trans_lt (max_lt (F64.abs_units_lt_limit hm) (F64.abs_units_lt_limit hl))
  exact ⟨hsum.finite_iff.2 hsumLim, hsum.units, hsumLim⟩

theorem refRampUp_direction {i j : Nat} (hij : i ≤ j) (hj : j < k) :
    between (refRampUp i k mid lvl) lvl (refRampUp j k mid lvl) = true := by
  obtain ⟨hfi, hui, -⟩ := refRampUp_units hm hl hd hk (hij.trans_lt hj)
  obtain ⟨hfj, huj, -⟩ := refRampUp_units hm hl hd hk hj
  have hround : Monotone fun q => F64.rnd (mid.units + q) := fun _ _ h => F64.rnd_mono (add_le_add le_rfl h)
  have hmem := hround.mapsTo_uIcc (stepUnits_mem_uIcc (abs_distance_lt_limit hm hl hd) hij hj hk)
  have hend : F64.rnd (mid.units + (lvl.units - mid.units : ℤ)) = lvl.units := by
    rw [Int.cast_sub, add_sub_cancel, F64.rnd_units hl]
  rw [between_iff hfi hl hfj, hui, huj, ← hend]
  exact hmem

theorem refRampUp_range {j : Nat} (hj : j < k) : between mid lvl (refRampUp j k mid lvl) = true := by
  have hdir := refRampUp_direction hm hl hd hk (Nat.zero_le j) hj
  obtain ⟨hf0, hu0, -⟩ := refRampUp_units hm hl hd hk (Nat.zero_lt_of_lt hj)
  obtain ⟨hfj, -, -⟩ := refRampUp_units hm hl hd hk hj
  rw [stepUnits_zero, add_zero, F64.rnd_units hm] at hu0
  rw [between_iff hf0 hl hfj, hu0] at hdir
  exact (between_iff hm hl hfj).2 hdir

theorem refRampUp_linear {j : Nat} (hj : j < k) :
    ((refRampUp j k mid lvl).units * k - (mid.units * k + (lvl.units - mid.units) * j)).natAbs ≤
      (k + 8) * max mid.ulp lvl.ulp * k := by
  obtain ⟨-, hunits, hsum⟩ := refRampUp_units hm hl hd hk hj
  have hk0 : (0 : ℚ) < k := by exact_mod_cast Nat.zero_lt_of_lt hj
  have hU : (1 : ℚ) ≤ (max mid.ulp lvl.ulp : Nat) := by
    exact_mod_cast (Nat.two_pow_pos (mid.expField - 1)).trans_le (le_max_left mid.ulp lvl.ulp)
  have herr := refRamp_error (abs_distance_lt_limit hm hl hd) hsum hj hk hU
    (mid.abs_units_le_mul_ulp (le_max_left _ _))
    (by rw [Int.cast_sub, add_sub_cancel]; exact lvl.abs_units_le_mul_ulp (le_max_right _ _))
  rw [← hunits] at herr
  have hscale : (((refRampUp j k mid lvl).units * k - (mid.units * k + (lvl.units - mid.units) * j) : ℤ) : ℚ) =
      ((refRampUp j k mid lvl).units - (mid.units + (lvl.units - mid.units : ℤ) * (j / k))) * k := by
    push_cast
    field_simp
  rw [← Nat.cast_le (α := ℚ), Nat.cast_natAbs, Int.cast_abs, hscale, abs_mul, abs_of_pos hk0, Nat.cast_mul,
    Nat.cast_mul, Nat.cast_add]
  refine mul_le_mul_of_nonneg_right (herr.trans (mul_le_mul_of_nonneg_right ?_ (by linarith))) hk0.le
  norm_num
  linarith

end

/-- Settles O22: rounding is monotone and the steps do not go beyond the level's distance, so the samples keep range
and direction; the four roundings together move a sample by at most 7 units in the last place. -/
theorem refRampKeepsLimits : Obligations.RefRampKeepsLimits := by
  refine ⟨fun j k mid lvl => ⟨rfl, rfl⟩, fun amin amax b k j hmin hmax _ hsum hj hk => ?_⟩
  have hm := midLevel_finite hsum
  have hl : (level amin amax b).isFinite = true := by cases b <;> assumption
  have hd := sub_midLevel_finite hmin hmax hsum b
  exact ⟨refRampUp_range hm hl hd hk hj, fun hj1 => refRampUp_direction hm hl hd hk (Nat.le_succ j) hj1,
    refRampUp_linear hm hl hd hk hj⟩

end Sys2Proof.Machine
end

section
/-! PROOFS. EMIT, CONNECT and DISCONNECT (R91 to R94): how each ends, what it reads and its frame: O26 to O30. -/

namespace Sys2Proof.Machine

open Sys2Proof.Safety

/-! ## What an EMIT delivers, and how it ends (R92) -/

section
variable {s s' : State}

theorem storedOutput_eq_map (s : State) :
    storedOutput s = (List.range s.outlen.toNat).map fun j => outSample s.mem (outbufBase + 8 * j) :=
  outSamplesFrom_eq _ _ _

/-- The stored output is a view of OUTLEN and of the OUTBUF bytes below it. -/
theorem storedOutput_congr (hlen : s'.outlen = s.outlen)
    (hread : ∀ a, outbufBase ≤ a → a < outbufBase + 8 * s.outlen.toNat →
      Memory.read s'.mem a = Memory.read s.mem a) : storedOutput s' = storedOutput s := by
  rw [storedOutput_eq_map, storedOutput_eq_map, hlen]
  refine List.map_congr_left fun j hj => sampleOfBytes_congr fun i hi => ?_
  have hlt := List.mem_range.1 hj
  rw [hread _ (by omega) (by omega)]

theorem consumersReg_congr (hp : s'.params = s.params) (hc : s'.consumers = s.consumers) :
    consumersReg s' = consumersReg s := by
  rw [consumersReg, consumersReg, hp, hc]

/-- The entries of a delivery are a view of CONSUMERS, as it reads, and of the samples. -/
theorem emissionOf_congr (h : consumersReg s' = consumersReg s) (x : List F64) : emissionOf s' x = emissionOf s x := by
  rw [emissionOf, emissionOf, h]

theorem execEmit_of_valid (h : s.outValid = true) : execEmit s = .next (succeed (deliver s (storedOutput s))) :=
  if_neg (by simp [h])

theorem execEmit_of_invalid (h : s.outValid = false) : execEmit s = .next (raise s .invalidSignal) := if_pos h

end

/-- Settles O26: an EMIT delivers the stored output, which OUTBUF holds sample by sample, or ends in error 1. -/
theorem emitDeliversStoredOutput : Obligations.EmitDeliversStoredOutput := by
  refine fun s => ⟨fun hv => ?_, fun hv => execEmit_of_invalid hv⟩
  rw [← storedOutput_eq_map]
  exact execEmit_of_valid hv

/-- Settles O27: OUT_VALID decides how an EMIT ends; the mask and the samples it delivers are views of the fields on
which the two states agree. -/
theorem emitIgnoresInputs : Obligations.EmitIgnoresInputs := by
  intro s s' t hp hvalid hlen hc htrace hread h
  cases hv : s.outValid with
  | false =>
    obtain rfl : raise s .invalidSignal = t := Host.Outcome.next.inj ((execEmit_of_invalid hv).symm.trans h)
    exact ⟨_, execEmit_of_invalid (hvalid.trans hv), htrace, rfl⟩
  | true =>
    obtain rfl : succeed (deliver s (storedOutput s)) = t :=
      Host.Outcome.next.inj ((execEmit_of_valid hv).symm.trans h)
    refine ⟨_, execEmit_of_valid (hvalid.trans hv), ?_, rfl⟩
    rw [succeed_trace, succeed_trace, deliver_trace, deliver_trace, htrace, storedOutput_congr hlen hread,
      emissionOf_congr (consumersReg_congr hp hc)]

/-! ## How CONNECT and DISCONNECT end (R93, R94) -/

section
variable {s : State} {c : Nat}

theorem execConnect_of_slot (h : c < s.params.maxConsumers) : execConnect c s = .next (succeed (connectSlot s c)) :=
  if_neg (Nat.not_le.2 h)

theorem execConnect_of_absent_slot (h : s.params.maxConsumers ≤ c) :
    execConnect c s = .next (raise s .invalidConsumer) := if_pos h

theorem execDisconnect_of_slot (h : c < s.params.maxConsumers) :
    execDisconnect c s = .next (succeed (disconnectSlot s c)) := if_neg (Nat.not_le.2 h)

theorem execDisconnect_of_absent_slot (h : s.params.maxConsumers ≤ c) :
    execDisconnect c s = .next (raise s .invalidConsumer) := if_pos h

/-- The word of one slot has that slot's bit and no other: a legal P_MAX_CONSUMERS is 32 at most (R8). -/
theorem slotWord_getLsbD (hl : s.params.Legal) (hc : c < s.params.maxConsumers) (d : Nat) :
    ((1 : Word) <<< c).getLsbD d = decide (d = c) := by
  obtain ⟨-, -, -, -, -, -, -, hmax⟩ := hl
  have hbit := BitVec.getLsbD_twoPow (w := 32) c d
  rwa [decide_eq_true (show c < 32 by omega), Bool.true_and, decide_eq_decide.2 eq_comm] at hbit

/-- `reg(CONSUMERS)[c] <- 1` sets bit `c` as the register reads, and no other (R93). -/
theorem consumersReg_connectSlot (hl : s.params.Legal) (hc : c < s.params.maxConsumers) (d : Nat) :
    (consumersReg (connectSlot s c)).getLsbD d = (decide (d = c) || (consumersReg s).getLsbD d) := by
  rw [consumersReg_getLsbD (s := connectSlot s c) hl, consumersReg_getLsbD hl, connectSlot_consumers,
    connectSlot_params, BitVec.getLsbD_or, slotWord_getLsbD hl hc]
  by_cases hd : d = c
  · simp [hd, hc]
  · simp [hd]

/-- `reg(CONSUMERS)[c] <- 0` clears bit `c` as the register reads, and no other (R94). -/
theorem consumersReg_disconnectSlot (hl : s.params.Legal) (hc : c < s.params.maxConsumers) (d : Nat) :
    (consumersReg (disconnectSlot s c)).getLsbD d = (!decide (d = c) && (consumersReg s).getLsbD d) := by
  rw [consumersReg_getLsbD (s := disconnectSlot s c) hl, consumersReg_getLsbD hl, disconnectSlot_consumers,
    disconnectSlot_params, BitVec.getLsbD_and, BitVec.getLsbD_not, slotWord_getLsbD hl hc]
  by_cases hd : d = c
  · simp [hd]
  · by_cases h32 : d < 32
    · simp [hd, h32]
    · simp [BitVec.getLsbD_of_ge _ _ (Nat.le_of_not_lt h32)]

end

/-- Settles O28: a slot that exists is connected, which its bit of CONSUMERS shows; any other slot is error 8. -/
theorem connectRegistersSlot : Obligations.ConnectRegistersSlot := by
  refine fun s c hl => ⟨fun hc => ?_, fun hc => execConnect_of_absent_slot hc⟩
  exact ⟨_, execConnect_of_slot hc, rfl, consumersReg_connectSlot hl hc, rfl⟩

/-- Settles O29: a slot that exists is disconnected, which its bit of CONSUMERS shows; any other slot is error 8. -/
theorem disconnectDeregistersSlot : Obligations.DisconnectDeregistersSlot := by
  refine fun s c hl => ⟨fun hc => ?_, fun hc => execDisconnect_of_absent_slot hc⟩
  exact ⟨_, execDisconnect_of_slot hc, rfl, consumersReg_disconnectSlot hl hc, rfl⟩

/-! ## The frame -/

/-- Settles O30: a delivery writes the trace, the write of a slot CONSUMERS, and an error neither. -/
theorem outputCommandsFrame : Obligations.OutputCommandsFrame := by
  intro s t i hi h
  rcases exec_cases h with ⟨e, rfl⟩ | ⟨rfl, -⟩ | ⟨rfl, -⟩ | ⟨rfl, -, rfl⟩ | ⟨c, rfl, -, rfl⟩ | ⟨c, rfl, -, rfl⟩
  · simp [SameStaging, SameActive, SameMemory, SameModel]
  · simp at hi
  · simp at hi
  · simp [SameStaging, SameActive, SameMemory, SameModel]
  · simp [SameStaging, SameActive, SameMemory, SameModel]
  · simp [SameStaging, SameActive, SameMemory, SameModel]

end Sys2Proof.Machine
end

section
/-! PROOFS. How a command's ERRCODE shows that it failed (R98), and the step with nothing pending (R110): O32, O49. -/

namespace Sys2Proof.Machine

/-- A command raises an error, and does nothing else (R98), or succeeds and clears ERRCODE last (R19). -/
theorem exec_raises_or_clears_errcode {i : Instr} {s t : State} (h : exec i s = .next t) :
    (∃ e, t = raise s e) ∨ t.errcode = 0 := by
  rcases exec_cases h with herr | ⟨-, -, -, rfl⟩ | ⟨-, sch, bits, -, rfl⟩ | ⟨-, -, rfl⟩ | ⟨c, -, -, rfl⟩ | ⟨c, -, -, rfl⟩
  · exact .inl herr
  all_goals exact .inr rfl

/-- A write of CMD whose command fails, at decoding or after it, writes LAST_OPC and raises its error (R59, R62). -/
theorem performCommand_eq_raise_of_errcode_ne_zero {s t : State} {w : Word} (h : performCommand s w = .next t)
    (hne : t.errcode ≠ 0) : ∃ e, t = raise (setLastOpc s (opcField w)) e := by
  rcases performCommand_cases h with ⟨-, rfl⟩ | ⟨i, -, hx⟩
  · exact ⟨.illegalCommand, rfl⟩
  · exact (exec_raises_or_clears_errcode hx).resolve_right hne

/-- Settles O32: the next state is the error raised after LAST_OPC is written, and these two fields are all that
differs. -/
theorem errorsChangeOnlyErrcode : Obligations.ErrorsChangeOnlyErrcode := by
  intro s t w h hne
  obtain ⟨e, rfl⟩ := performCommand_eq_raise_of_errcode_ne_zero h hne
  exact ⟨e, raise_errcode _ e, rfl⟩

/-- Settles O49: with the mark clear a step takes the next input, and with none pending it returns its state. -/
theorem idleHoldsState : Obligations.IdleHoldsState := by
  intro s hm hp
  rw [step, takeInput, if_neg (Bool.eq_false_iff.1 hm), hp]

end Sys2Proof.Machine
end

section
/-! PROOFS. Reset (R111 to R113): the state it leaves, which meets the invariant, what the commands do there, and that
nothing is delivered while no slot is connected: O46, O47, O51. -/

namespace Sys2Proof.Machine

open Sys2Proof.Safety

/-! ## The step that takes a reset (R111, R112) -/

theorem step_reset {s : State} {rest : List Input} (hm : s.faultMark = false) (hp : s.pending = .reset :: rest) :
    step s = .next (resetBlock (setPending s rest)) := by
  rw [step, takeInput, if_neg (Bool.eq_false_iff.1 hm), hp]

/-- Settles O46: the step ends in `resetBlock`, which keeps the mark and leaves the memory empty. -/
theorem resetEstablishesResetState : Obligations.ResetEstablishesResetState := by
  refine ⟨fun s rest hm hp => ?_, resetBlock_faultMark, fun _ => rfl⟩
  rw [step_reset hm hp]
  simp [resetBlock, State.resetWith, hm]

/-- Settles O51: `State.reset` is the reset state at the reference parameters, which are legal. -/
theorem resetMeetsInvariant : Obligations.ResetMeetsInvariant :=
  ⟨fun _ hp => stateInv_resetWith hp, stateInv_resetWith (by decide)⟩

/-! ## No slot connected (R91, R113) -/

section
variable {s : State}

/-- A delivery while no slot is connected adds no entry (R91). -/
theorem deliver_trace_of_unconnected (h : consumersReg s = 0) (x : List F64) : (deliver s x).trace = s.trace := by
  rw [deliver_trace, emissionOf, if_pos h, List.append_nil]

/-- Disconnecting a slot connects none. -/
theorem consumersReg_disconnectSlot_of_unconnected (h : consumersReg s = 0) (c : Nat) :
    consumersReg (disconnectSlot s c) = 0 := by
  have hmask : s.consumers &&& consumerMask s.params = 0 := h
  rw [consumersReg, disconnectSlot_consumers, disconnectSlot_params, BitVec.and_assoc, BitVec.and_comm (~~~_),
    ← BitVec.and_assoc, hmask]
  exact BitVec.zero_and

/-- While no slot is connected no command adds to the trace, and CONNECT alone writes a bit of CONSUMERS to 1. -/
theorem exec_of_unconnected {t : State} {i : Instr} (hc : consumersReg s = 0) (h : exec i s = .next t) :
    t.trace = s.trace ∧ (consumersReg t = 0 ∨ ∃ c, i = .connect c) := by
  rcases exec_cases h with ⟨e, rfl⟩ | ⟨-, -, -, rfl⟩ | ⟨-, sch, bits, -, rfl⟩ | ⟨-, -, rfl⟩ | ⟨c, rfl, -, rfl⟩ |
    ⟨c, -, -, rfl⟩
  · exact ⟨rfl, .inl hc⟩
  · exact ⟨rfl, .inl hc⟩
  · exact ⟨deliver_trace_of_unconnected (s := succeed (storeOutput s _)) hc _, .inl hc⟩
  · exact ⟨deliver_trace_of_unconnected hc _, .inl hc⟩
  · exact ⟨rfl, .inr ⟨c, rfl⟩⟩
  · exact ⟨rfl, .inl (consumersReg_disconnectSlot_of_unconnected hc c)⟩

end

/-! ## The commands right after reset (R113) -/

/-- No number is below itself, so equal amplitudes fail the check of R69. -/
theorem amplitudesValid_self (x : F64) : ¬amplitudesValid x x = true := by
  intro h
  obtain ⟨hfin, -, hlt, -⟩ := amplitudesValid_eq_true.1 h
  exact lt_irrefl _ ((F64.compare_finite hfin hfin).1.1 hlt)

theorem consumersReg_resetWith (p : Config.Params) : consumersReg (State.resetWith p) = 0 := BitVec.zero_and

/-- Settles O47: CFG_VALID and OUT_VALID are 0 after reset, the staged amplitudes both +0.0, and CONSUMERS is 0. -/
theorem afterResetCommandsFail : Obligations.AfterResetCommandsFail := by
  refine ⟨fun p => ⟨?_, ?_, ?_, consumersReg_resetWith p⟩, fun s t i => exec_of_unconnected⟩
  · exact execReceive_of_error (rxCheck_of_unconfigured (s := State.resetWith p) rfl)
  · exact execEmit_of_invalid rfl
  · exact execConfig_of_invalid_amplitudes (amplitudesValid_self (stagedAmin (State.resetWith p)))

end Sys2Proof.Machine
end
